-- ==== Sys2Proof/Word.lean ====
section
/-! DEFINITION. The words of CORE: a block, a byte, a command word, a response word (spec 00_scope.md R11,
30_encoding.md R47 and R54). Every value is unsigned; bit 0 is the least significant. -/

namespace Sys2Proof

/-- A 64-bit block; the key and the chaining value have the same width (00_scope.md R6, R11). -/
abbrev Block := BitVec 64

/-- One byte, the unit of the byte face. -/
abbrev Byte := BitVec 8

/-- A command word, `cmd[71:0]` (30_encoding.md R47). -/
abbrev CmdWord := BitVec 72

/-- A response word, `rsp[71:0]` (30_encoding.md R54). -/
abbrev RspWord := BitVec 72

end Sys2Proof
end

