-- ==== Sys2Proof/Syntax.lean ====
section
/-! DEFINITION. The commands of CORE, one constructor per row of spec/opcode_table.json, and the lines of a command
stream in the assembler's abstract form (spec 30_encoding.md R50, R60, R61). -/

namespace Sys2Proof

/-- A command with the operand its format uses (30_encoding.md R48): a format Q command carries a block, the format B
command a byte, a format N command nothing. Ignored operand bits are no part of the command. -/
inductive Instr where
  /-- ENCB, `op = 0x10`, format Q: encrypt one block with no chaining (40_block_transform.md R76). -/
  | encb (b : Block)
  /-- DECB, `op = 0x11`, format Q: decrypt one block with no chaining (40_block_transform.md R77). -/
  | decb (b : Block)
  /-- PUTB, `op = 0x20`, format B: push one byte into the packer (41_marshal.md R85). -/
  | putb (b : Byte)
  /-- PACK, `op = 0x21`, format N: take the packed block out (41_marshal.md R86). -/
  | pack
  /-- UNPK, `op = 0x22`, format Q: load a block into the unpacker (41_marshal.md R87). -/
  | unpk (b : Block)
  /-- GETB, `op = 0x23`, format N: pop the next byte (41_marshal.md R88). -/
  | getb
  /-- START, `op = 0x30`, format N: begin a new chain (42_cbc.md R96). -/
  | start
  /-- ENC, `op = 0x31`, format Q: encrypt the next block of the chain (42_cbc.md R97). -/
  | enc (p : Block)
  /-- DEC, `op = 0x32`, format Q: decrypt the next block of the chain (42_cbc.md R98). -/
  | dec (c : Block)
  /-- STAT, `op = 0x40`, format N: read the status word (43_system.md R109). -/
  | stat
  /-- CLRF, `op = 0x41`, format N: clear the sticky fault register (43_system.md R110). -/
  | clrf
  deriving DecidableEq, Repr

/-- The three operand formats (30_encoding.md R48). -/
inductive Format where
  /-- No operand: all 64 operand bits ignored. -/
  | n
  /-- Byte operand: bits 7 to 0; bits 63 to 8 ignored. -/
  | b
  /-- Block operand: all 64 bits. -/
  | q
  deriving DecidableEq, Repr

/-- One line of a command stream (30_encoding.md R60, R61): a command, one of the two pseudo-instructions, a raw word,
the reset action, or a line with no command on it. -/
inductive AsmLine where
  | instr (i : Instr)
  /-- `PUTBS b0, ..., b(n-1)`, 1 to 8 bytes. -/
  | putbs (bytes : List Byte)
  /-- `GETBS n`, n from 1 to 8. -/
  | getbs (n : Nat)
  /-- `.word 0x` and eighteen hex digits. -/
  | word (w : CmdWord)
  | reset
  /-- An empty line or a comment alone (log entry 13). -/
  | blank
  deriving DecidableEq, Repr

end Sys2Proof
end

