-- ==== Sys2Proof/WellFormed.lean ====
section
/-! DEFINITION. Which terms the spec gives a meaning to (spec 30_encoding.md R48, R61). A command's operand types hold
exactly the values its format encodes, so every `Instr` is well formed; what needs a check is a pseudo-instruction's
length (R61) and whether a command word is the canonical one (R48; `CmdWord.canonical` in Decode.lean). -/

namespace Sys2Proof

/-- Every command is well formed: a block operand is any 64-bit value, a byte operand any 8-bit value (R48, and
60_exceptions.md R114: no command rejects an operand). -/
def Instr.wellFormed : Instr → Bool
  | .encb _ => true
  | .decb _ => true
  | .putb _ => true
  | .pack => true
  | .unpk _ => true
  | .getb => true
  | .start => true
  | .enc _ => true
  | .dec _ => true
  | .stat => true
  | .clrf => true

/-- R61: PUTBS takes 1 to 8 bytes and GETBS a count from 1 to 8. -/
def AsmLine.wellFormed : AsmLine → Bool
  | .instr i => i.wellFormed
  | .putbs bytes => 1 ≤ bytes.length && bytes.length ≤ 8
  | .getbs n => 1 ≤ n && n ≤ 8
  | .word _ => true
  | .reset => true
  | .blank => true

end Sys2Proof
end

