-- ==== Sys2Proof/Decode.lean ====
section
/-! DEFINITION. Decoding a command word and encoding a command (spec 30_encoding.md R47 to R51, R57, R60, R62). The
decoder is total on the 2^72 words: one of eleven commands, or an illegal word refused by its opcode. -/

namespace Sys2Proof

/-- Why a word is no command: its opcode is none of the eleven (R57). -/
inductive DecodeError where
  | illegalOp (op : Byte)
  deriving DecidableEq, Repr

/-- The `op` field, `cmd[71:64]` (R47). -/
def opOf (w : CmdWord) : Byte := w.extractLsb' 64 8

/-- The `operand` field, `cmd[63:0]` (R47, R49). -/
def operandOf (w : CmdWord) : Block := w.extractLsb' 0 64

/-- The byte operand of format B, `operand[7:0]` (R48, R49). -/
def byteOf (operand : Block) : Byte := operand.extractLsb' 0 8

/-- The word `{op, operand}` (R47). -/
def packWord (op : Byte) (operand : Block) : CmdWord := op ++ operand

/-- A row of the opcode map of R50. -/
structure OpRow where
  mnemonic : String
  op : Byte
  format : Format
  /-- The command read from an operand field, by the row's format (R48). -/
  build : Block → Instr

/-- The opcode map (R50). -/
def opcodeMap : List OpRow :=
  [ ⟨"ENCB", 0x10, .q, .encb⟩,
    ⟨"DECB", 0x11, .q, .decb⟩,
    ⟨"PUTB", 0x20, .b, fun x => .putb (byteOf x)⟩,
    ⟨"PACK", 0x21, .n, fun _ => .pack⟩,
    ⟨"UNPK", 0x22, .q, .unpk⟩,
    ⟨"GETB", 0x23, .n, fun _ => .getb⟩,
    ⟨"START", 0x30, .n, fun _ => .start⟩,
    ⟨"ENC", 0x31, .q, .enc⟩,
    ⟨"DEC", 0x32, .q, .dec⟩,
    ⟨"STAT", 0x40, .n, fun _ => .stat⟩,
    ⟨"CLRF", 0x41, .n, fun _ => .clrf⟩ ]

/-- The row an opcode selects, if it is one of the eleven (R50, R51). -/
def rowOf (op : Byte) : Option OpRow := opcodeMap.find? (fun r => r.op == op)

/-- The decoder (R51): read `op`; the row it selects gives the command, and no row means an illegal word (R57). -/
def decode (w : CmdWord) : Except DecodeError Instr :=
  match rowOf (opOf w) with
  | some r => .ok (r.build (operandOf w))
  | none => .error (.illegalOp (opOf w))

/-- The opcode of each command (R50). -/
def Instr.op : Instr → Byte
  | .encb _ => 0x10
  | .decb _ => 0x11
  | .putb _ => 0x20
  | .pack => 0x21
  | .unpk _ => 0x22
  | .getb => 0x23
  | .start => 0x30
  | .enc _ => 0x31
  | .dec _ => 0x32
  | .stat => 0x40
  | .clrf => 0x41

/-- The canonical operand field: the operand zero-extended to 64 bits, zero where there is none (R48, R60). -/
def Instr.operand : Instr → Block
  | .encb b => b
  | .decb b => b
  | .putb b => b.setWidth 64
  | .pack => 0
  | .unpk b => b
  | .getb => 0
  | .start => 0
  | .enc p => p
  | .dec c => c
  | .stat => 0
  | .clrf => 0

/-- The encoder: the canonical word, `op << 64` or-ed with the operand (R60, R62). -/
def encode (i : Instr) : CmdWord := packWord i.op i.operand

/-- The operand bits a format examines (R48). -/
def Format.usedBits : Format → Block
  | .n => 0
  | .b => 0xFF
  | .q => 0xFFFFFFFFFFFFFFFF

/-- The word with the operand bits its opcode's format ignores set to zero (R48); an illegal word is left as it is. -/
def canonicalize (w : CmdWord) : CmdWord :=
  match rowOf (opOf w) with
  | some r => packWord (opOf w) (operandOf w &&& r.format.usedBits)
  | none => w

/-- A canonical word: a command's word whose ignored operand bits are zero (R48). An illegal word is not one. -/
def CmdWord.canonical (w : CmdWord) : Bool :=
  (rowOf (opOf w)).isSome && canonicalize w == w

/-- The command word whose bits are `w`, numbered as spec/opcode_table.json numbers them: bit 0 least significant, a
word of `nbits` bits, the bits above zero. -/
def tableWord (nbits w : Nat) : CmdWord := BitVec.ofNat 72 (w % 2 ^ nbits)

/-- What the decoder reads from a table row's word. -/
def decodeTableWord (nbits w : Nat) : Option Instr :=
  match decode (tableWord nbits w) with
  | .ok i => some i
  | .error _ => none

end Sys2Proof
end

