-- ==== Sys2Proof/Config.lean ====
section
/-! DEFINITION. The parameters of CORE (spec 00_scope.md R6 to R9). They are fixed for a run: no command and no
reset reads them out or changes them. No value of CORE's behaviour is left open by the spec, so there is no free
value here (log entry 10 says how the OPEN parameters IMPL and LAT are treated). -/

namespace Sys2Proof.Config

/-- `BYTES_PER_BLOCK` (R6). -/
def bytesPerBlock : Nat := 8

/-- `ROT`, the rotation count of every round (R6, 40_block_transform.md R65). -/
def rot : Fin 64 := 10

/-- `ROUNDS` of the block transform in each direction (R6). -/
def rounds : Nat := 4

/-- `KEY` (R7, decisions D6 and D30: the literal as the spec prints it). Every function that uses the key takes it
as an argument; every command passes this value. -/
def key : Block := 0x1234DEADBEEFCAFE

/-- `IV_START` (R8): what reset and START set the chaining register to. -/
def ivStart : Block := 0x0000000000000000

/-- `CMD_W`, the width of a command word (R9). -/
def cmdWidth : Nat := 72

/-- `RSP_W`, the width of a response word (R9). -/
def rspWidth : Nat := 72

/-- `IDX_W`, the width of the block counter (R9). -/
def idxWidth : Nat := 32

/-- The values of the OPEN parameter `IMPL` (R9): how the four rounds are built. No command result depends on it
(40_block_transform.md R78); Machine/Build.lean gives both builds. -/
inductive Impl where
  | unrolled
  | pipelined
  deriving DecidableEq, Repr

end Sys2Proof.Config
end

