-- ==== Sys2Proof/Machine/State.lean ====
section
/-! DEFINITION. The state of CORE (spec 10_state.md R15 to R23, R31), the words at its two ports, and the reasons a
step can stop. -/

namespace Sys2Proof.Machine

/-- A response word by its fields (30_encoding.md R54); bit 71 of the word is always zero. -/
structure Response where
  /-- `CODE`, bits 70 to 68: 0 when the command was performed (R55). -/
  code : BitVec 3
  /-- `CNT`, bits 67 to 64 (R56). -/
  cnt : BitVec 4
  /-- `DATA`, bits 63 to 0. -/
  data : Block
  deriving DecidableEq, Repr

/-- One action of the host (00_scope.md R10; 70_reset_and_hazards.md R135). -/
inductive HostAction where
  /-- The host asserts `rst` (R129). -/
  | reset
  /-- The host presents a command word and CORE accepts it (R52). -/
  | command (w : CmdWord)
  /-- The host takes the response CORE presents (R52, R53). -/
  | take
  deriving DecidableEq, Repr

/-- The three faults of CORE (60_exceptions.md R112). CORE reports a fault in a response and goes on (R120): it is
no stop of the model. -/
inductive FaultCode where
  | illegalOp
  | packOverflow
  | unpackEmpty
  deriving DecidableEq, Repr

/-- The architectural state of CORE: exactly the tuple of seven registers of 10_state.md R15. Command words are inputs
and response words outputs of the functions on it (R16 (b), (c)); nothing of either is kept here. -/
structure Registers where
  /-- `IV`, the chaining value for the next block (R17). -/
  iv : Block
  /-- `IDX`, blocks processed in the current chain modulo 2^32 (R18). -/
  idx : BitVec 32
  /-- `PK`, the packer's assembly register (R19). -/
  pk : Block
  /-- `PKN`, how many bytes `PK` holds (R20). -/
  pkn : BitVec 4
  /-- `UQ`, the unpacker's shift register (R21). -/
  uq : Block
  /-- `UQN`, how many bytes of the current block are still to be read (R22). -/
  uqn : BitVec 4
  /-- `FLT`, the code of the first fault since reset or CLRF (R23). -/
  flt : BitVec 3
  deriving DecidableEq, Repr

/-- What a command makes of the registers: the registers after it and its one response, an output (00_scope.md R10,
10_state.md R16 (c)). -/
structure Answer where
  regs : Registers
  rsp : Response
  deriving DecidableEq, Repr

/-- The host's side of the two ports, which is no state of CORE (10_state.md R16 (b), (c), (e)): what the host will do,
what it has been given. It stands beside the registers because a step of the machine is given nothing but a state (log
entries 1, 2, 5). -/
structure HostSide where
  /-- MODEL: the host's actions still to come, the next one first (log entry 1). -/
  inputs : List HostAction
  /-- MODEL: responses CORE has produced and the host has not taken, oldest first (log entry 2). -/
  pending : List Response
  /-- MODEL: responses delivered to the host, oldest first (log entry 2). -/
  received : List Response
  /-- MODEL: some command of this run has faulted; nothing clears it (60_exceptions.md R122, log entry 5). -/
  faulted : Bool
  deriving DecidableEq, Repr

/-- What a step is given: CORE's registers, and the host's side of the ports beside them. No register and no response
ever depends on the host's side; every meaning is a function of the registers alone (Machine/Command.lean). -/
structure State extends Registers, HostSide
  deriving DecidableEq, Repr

/-- Why the machine stops with no next state. CORE itself never stops: its three faults are next states. -/
inductive Fault where
  /-- Raised by PUTB when `PKN` is 9 to 15, where lane `PKN` of `PK` does not exist. The spec says that these values
  are never reached and that no rule gives them meaning (93_implementation_defined.md V6). Safe: the model stops where
  nothing is said, and no state that meets the invariants of R28 stops (log entry 6). -/
  | packLaneOutOfRange
  deriving DecidableEq, Repr

/-- Why an instruction has no meaning. -/
inductive Refusal where
  /-- Raised by `exec` for an instruction the model has not reached. Safe. No arm uses it: every command is
  modelled. -/
  | notModelled (mnemonic : String)
  deriving DecidableEq, Repr

/-- The registers after reset (R31, 70_reset_and_hazards.md R130). -/
def Registers.reset : Registers where
  iv := Config.ivStart
  idx := 0
  pk := 0
  pkn := 0
  uq := 0
  uqn := 0
  flt := 0

/-- The machine right after reset: all seven registers as the spec says (R31), and the host's side empty (log entries 1,
2, 5). -/
def State.reset : State where
  toRegisters := Registers.reset
  inputs := []
  pending := []
  received := []
  faulted := false

end Sys2Proof.Machine
end

