-- ==== Sys2Proof/Machine/Operands.lean ====
section
/-! DEFINITION. The operand forms CORE computes with: the eight byte lanes of a block, the zero-extended byte, and the
fields of the response word (spec 00_scope.md R11; 20_memory.md R34, R35; 30_encoding.md R54). The command word's own
operand fields are taken in Decode.lean. -/

namespace Sys2Proof.Machine

/-- Byte `k` of a block, also called lane `k`: bits `8k+7` to `8k` (R11). -/
def lane (v : Block) (k : Nat) : Byte := v.extractLsb' (8 * k) 8

/-- `zext_64` of a byte (R11). -/
def zextByte (b : Byte) : Block := b.setWidth 64

/-- A block with lane `k` replaced and all other lanes kept (41_marshal.md R85). -/
def setLane (v : Block) (k : Nat) (b : Byte) : Block :=
  (v &&& ~~~(0xFF#64 <<< (8 * k))) ||| (zextByte b <<< (8 * k))

/-- The code number of a fault (60_exceptions.md R112). -/
def FaultCode.bits : FaultCode → BitVec 3
  | .illegalOp => 1
  | .packOverflow => 2
  | .unpackEmpty => 3

/-- The `CNT` a faulting command answers with (30_encoding.md R56, 60_exceptions.md R119). -/
def FaultCode.cnt : FaultCode → BitVec 4
  | .illegalOp => 0
  | .packOverflow => 8
  | .unpackEmpty => 0

/-- The response word `{0, CODE, CNT, DATA}` (30_encoding.md R54). -/
def Response.toWord (r : Response) : RspWord := 0#1 ++ r.code ++ r.cnt ++ r.data

/-- The status byte, bits 71 to 64 of the response word (30_encoding.md R54). -/
def Response.statusByte (r : Response) : Byte := r.toWord.extractLsb' 64 8

end Sys2Proof.Machine
end

