-- ==== Sys2Proof/Machine/Flags.lean ====
section
/-! DEFINITION. CORE has no condition codes (spec 10_state.md R26). Its one status flag is the sticky first-fault
register FLT; this file computes what a fault records in it and the status word that shows it (R23, R27;
60_exceptions.md R119). -/

namespace Sys2Proof.Machine

/-- What `FLT` holds after a fault: the first fault since reset or CLRF is kept (60_exceptions.md R119). -/
def recordFault (flt : BitVec 3) (c : FaultCode) : BitVec 3 :=
  if flt = 0 then c.bits else flt

/-- The status word `{zext_21(0), FLT, UQN, PKN, IDX}` (10_state.md R27). -/
def statusWord (r : Registers) : Block := 0#21 ++ r.flt ++ r.uqn ++ r.pkn ++ r.idx

end Sys2Proof.Machine
end

