-- ==== Sys2Proof/Machine/Ops.lean ====
section
/-! DEFINITION. The named operations over the registers and over the host's side of the ports: every meaning is written
with these, so that each register is written in one place. Raising a fault is one shared operation (spec
60_exceptions.md R119), with the acknowledgement of a fault beside it (R121). CORE has no memory (20_memory.md R33). -/

namespace Sys2Proof.Machine

/-! ### Operations on CORE's registers -/

/-- Write the chain registers `IV` and `IDX` together (10_state.md R17, R18). -/
def Registers.setChain (iv : Block) (idx : BitVec 32) (r : Registers) : Registers := { r with iv := iv, idx := idx }

/-- Write the packer registers `PK` and `PKN` together (10_state.md R19, R20). -/
def Registers.setPacker (pk : Block) (pkn : BitVec 4) (r : Registers) : Registers := { r with pk := pk, pkn := pkn }

/-- Write the unpacker registers `UQ` and `UQN` together (10_state.md R21, R22). -/
def Registers.setUnpacker (uq : Block) (uqn : BitVec 4) (r : Registers) : Registers := { r with uq := uq, uqn := uqn }

/-- Write `FLT` (10_state.md R23). -/
def Registers.setFlt (flt : BitVec 3) (r : Registers) : Registers := { r with flt := flt }

/-- `respond(CODE, CNT, DATA)`: the command's one response beside the registers it leaves (00_scope.md R12,
30_encoding.md R53, R54). -/
def Registers.respond (code : BitVec 3) (cnt : BitVec 4) (data : Block) (r : Registers) : Answer :=
  ⟨r, ⟨code, cnt, data⟩⟩

/-- Fault entry, `raise Fault(code)` (60_exceptions.md R119): record the code if none is recorded, answer
`(code, cnt, 0)`, and change no other register (R118). -/
def Registers.raise (c : FaultCode) (r : Registers) : Answer :=
  (r.setFlt (recordFault r.flt c)).respond c.bits c.cnt 0

/-- The host's acknowledgement of a fault: `FLT` is cleared and nothing else restored (60_exceptions.md R121,
43_system.md R110). -/
def Registers.clearFault (r : Registers) : Registers := r.setFlt 0

/-! ### Operations on the machine -/

/-- A command performed: its registers become CORE's, its response goes to the host's side, and a response with a fault
code marks the run (60_exceptions.md R122). -/
def State.perform (a : Answer) (s : State) : State :=
  { s with toRegisters := a.regs, pending := s.pending ++ [a.rsp], faulted := (a.rsp.code != 0) || s.faulted }

/-- A command's answer taken to the machine; the machine stops where the command has none (log entry 6). -/
def State.performOr (x : Except Fault Answer) (s : State) : Host.Outcome State Fault Refusal :=
  match x with
  | .ok a => .next (s.perform a)
  | .error f => .fault f

/-- The fault entry on the machine. -/
def State.raise (c : FaultCode) (s : State) : State := s.perform (s.toRegisters.raise c)

/-- Put the host's coming actions. -/
def State.withInputs (inputs : List HostAction) (s : State) : State := { s with inputs := inputs }

/-- The host asserts `rst` (70_reset_and_hazards.md R129 to R131, R133): all seven registers take their reset values
and responses not yet delivered are withdrawn. What was delivered, what the host will still do and the mark of a
faulted run are no part of CORE (log entry 8). -/
def State.assertReset (s : State) : State := { s with toRegisters := Registers.reset, pending := [] }

/-- The host takes the oldest response; with none presented nothing is delivered (30_encoding.md R53, log entry 4). -/
def State.deliver (s : State) : State :=
  match s.pending with
  | [] => s
  | r :: rest => { s with pending := rest, received := s.received ++ [r] }

/-- With no command presented CORE holds its state (60_exceptions.md R128, log entry 3). -/
def State.hold (s : State) : State := s

end Sys2Proof.Machine
end

