-- ==== Sys2Proof/Machine/Cipher.lean ====
section
/-! DEFINITION. Bit rotation and the block transform as pure functions (spec 40_block_transform.md R63 to R74). There
is no key schedule and no substitution table (R73). -/

namespace Sys2Proof.Machine

/-- `rotl(x, c)` (R63); the identity at count 0 by its own clause (R65). Counts of 64 or more are outside the domain:
the count's type excludes them. -/
def rotl (x : Block) (c : Fin 64) : Block :=
  if c = 0 then x else (x <<< c.val) ||| (x >>> (64 - c.val))

/-- `rotr(x, c)` (R64), the identity at count 0 (R65). -/
def rotr (x : Block) (c : Fin 64) : Block :=
  if c = 0 then x else (x >>> c.val) ||| (x <<< (64 - c.val))

/-- One encryption round: rotate first, then XOR (R69). -/
def encRound (b K : Block) : Block := rotl b Config.rot ^^^ K

/-- One decryption round: XOR first, then rotate (R69). -/
def decRound (b K : Block) : Block := rotr (b ^^^ K) Config.rot

/-- `n` applications of a round, each with the same key (R70, R71, R73). -/
def applyRounds (round : Block → Block → Block) (K : Block) : Nat → Block → Block
  | 0, b => b
  | n + 1, b => applyRounds round K n (round b K)

/-- `encrypt_block(B, K)`: exactly `ROUNDS` encryption rounds (R70). -/
def encryptBlock (B K : Block) : Block := applyRounds encRound K Config.rounds B

/-- `decrypt_block(B, K)`: exactly `ROUNDS` decryption rounds (R71). -/
def decryptBlock (B K : Block) : Block := applyRounds decRound K Config.rounds B

/-- `KE(K)` of the closed form (R74). -/
def keyMaskEnc (K : Block) : Block := rotl K 30 ^^^ rotl K 20 ^^^ rotl K 10 ^^^ K

/-- `KD(K)` of the closed form (R74). -/
def keyMaskDec (K : Block) : Block := rotr K 40 ^^^ rotr K 30 ^^^ rotr K 20 ^^^ rotr K 10

end Sys2Proof.Machine
end

