-- ==== Sys2Proof/Machine/BlockTransform.lean ====
section
/-! DEFINITION. The commands of the block transform: ENCB and DECB (spec 40_block_transform.md R76, R77). -/

namespace Sys2Proof.Machine

/-- ENCB on the registers: answer `encrypt_block(B, KEY)`; no register changes (R76). -/
def encbAnswer (b : Block) (r : Registers) : Answer := r.respond 0 0 (encryptBlock b Config.key)

/-- DECB on the registers: answer `decrypt_block(B, KEY)`; no register changes (R77). -/
def decbAnswer (b : Block) (r : Registers) : Answer := r.respond 0 0 (decryptBlock b Config.key)

/-- ENCB (R76). -/
def execEncb (b : Block) (s : State) : Host.Outcome State Fault Refusal :=
  .next (s.perform (encbAnswer b s.toRegisters))

/-- DECB (R77). -/
def execDecb (b : Block) (s : State) : Host.Outcome State Fault Refusal :=
  .next (s.perform (decbAnswer b s.toRegisters))

end Sys2Proof.Machine
end

