-- ==== Sys2Proof/Machine/Cbc.lean ====
section
/-! DEFINITION. The CBC engine: the sequence functions (spec 42_cbc.md R92, R93) and the commands START, ENC and DEC
(R96 to R98). -/

namespace Sys2Proof.Machine

/-- `cbc_encrypt(P, K, iv)` (R92). -/
def cbcEncrypt : List Block → Block → Block → List Block
  | [], _, _ => []
  | p :: ps, K, iv => encryptBlock (iv ^^^ p) K :: cbcEncrypt ps K (encryptBlock (iv ^^^ p) K)

/-- `cbc_decrypt(C, K, iv)` (R93): the next chaining value is the ciphertext block. -/
def cbcDecrypt : List Block → Block → Block → List Block
  | [], _, _ => []
  | c :: cs, K, iv => (decryptBlock c K ^^^ iv) :: cbcDecrypt cs K c

/-- START on the registers: begin a new chain; the marshaler and `FLT` are untouched (R96). -/
def startAnswer (r : Registers) : Answer := (r.setChain Config.ivStart 0).respond 0 0 0

/-- ENC on the registers: the ciphertext block is answered and becomes the chaining value; `IDX` counts modulo 2^32
(R97). -/
def encAnswer (p : Block) (r : Registers) : Answer :=
  let c := encryptBlock (r.iv ^^^ p) Config.key
  (r.setChain c (r.idx + 1)).respond 0 0 c

/-- DEC on the registers: the plaintext block is answered; the operand becomes the chaining value; `IDX` counts modulo
2^32 (R98). -/
def decAnswer (c : Block) (r : Registers) : Answer :=
  (r.setChain c (r.idx + 1)).respond 0 0 (decryptBlock c Config.key ^^^ r.iv)

/-- START (R96). -/
def execStart (s : State) : Host.Outcome State Fault Refusal :=
  .next (s.perform (startAnswer s.toRegisters))

/-- ENC (R97). -/
def execEnc (p : Block) (s : State) : Host.Outcome State Fault Refusal :=
  .next (s.perform (encAnswer p s.toRegisters))

/-- DEC (R98). -/
def execDec (c : Block) (s : State) : Host.Outcome State Fault Refusal :=
  .next (s.perform (decAnswer c s.toRegisters))

end Sys2Proof.Machine
end

