-- ==== Sys2Proof/Machine/Marshal.lean ====
section
/-! DEFINITION. The marshaler: the pure functions between blocks and bytes (spec 41_marshal.md R79 to R84) and the
commands PUTB, PACK, UNPK and GETB (R85 to R88). -/

namespace Sys2Proof.Machine

/-- `block_to_bytes(x)`: the 8 bytes of a block, least significant first (R79). -/
def blockToBytes (x : Block) : Vector Byte 8 :=
  #v[lane x 0, lane x 1, lane x 2, lane x 3, lane x 4, lane x 5, lane x 6, lane x 7]

/-- `bytes_to_block(y)`: the little-endian value of exactly 8 bytes (R80). -/
def bytesToBlock (y : Vector Byte 8) : Block :=
  zextByte y[0] ||| zextByte y[1] <<< 8 ||| zextByte y[2] <<< 16 ||| zextByte y[3] <<< 24 |||
    zextByte y[4] <<< 32 ||| zextByte y[5] <<< 40 ||| zextByte y[6] <<< 48 ||| zextByte y[7] <<< 56

/-- Eight bytes from a sequence of at most 8, zero bytes appended (R82). -/
def padBytes (y : List Byte) : Vector Byte 8 := Vector.ofFn fun k : Fin 8 => y.getD k.val 0

/-- `pad_block(y)` for a sequence of at most 8 bytes (R82). Longer sequences are outside its domain (log entry 11). -/
def padBlock (y : List Byte) : Block := bytesToBlock (padBytes y)

/-- `blocks_to_bytes(s)`: the bytes of the blocks in order (R83). -/
def blocksToBytes (s : List Block) : List Byte := s.flatMap fun x => (blockToBytes x).toList

/-- `m = ceil(L / 8)`, the number of blocks of `L` bytes (R84). -/
def blockCount (L : Nat) : Nat := (L + 7) / 8

/-- The blocks of `bytes_to_blocks(t)`: 8 bytes each, the last one zero-padded (R84). -/
def bytesToBlocks (t : List Byte) : List Block :=
  (List.range (blockCount t.length)).map fun i => padBlock ((t.drop (8 * i)).take 8)

/-- The length of the last block, `n_last = L - 8(m - 1)`, for a sequence that is not empty (R84). -/
def lastBlockLength (t : List Byte) : Nat := t.length - 8 * (blockCount t.length - 1)

/-- PUTB on the registers: write lane `PKN` of `PK` and count it; a full packer faults and drops the byte (R85). A
count above 8 has no lane and no meaning (93_implementation_defined.md V6, log entry 6). -/
def putbAnswer (b : Byte) (r : Registers) : Except Fault Answer :=
  if r.pkn = 8 then
    .ok (r.raise .packOverflow)
  else if r.pkn < 8 then
    .ok ((r.setPacker (setLane r.pk r.pkn.toNat b) (r.pkn + 1)).respond 0 (r.pkn + 1) 0)
  else
    .error .packLaneOutOfRange

/-- PACK on the registers: answer the packed block with its byte count and empty the packer (R86). -/
def packAnswer (r : Registers) : Answer := (r.setPacker 0 0).respond 0 r.pkn r.pk

/-- UNPK on the registers: load a block into the unpacker (R87). -/
def unpkAnswer (b : Block) (r : Registers) : Answer := (r.setUnpacker b 8).respond 0 8 0

/-- GETB on the registers: answer lane 0 of `UQ` zero-extended and shift the next lane down; an empty unpacker faults
(R88). -/
def getbAnswer (r : Registers) : Answer :=
  if r.uqn = 0 then
    r.raise .unpackEmpty
  else
    (r.setUnpacker (r.uq >>> 8) (r.uqn - 1)).respond 0 (r.uqn - 1) (zextByte (lane r.uq 0))

/-- PUTB (R85). -/
def execPutb (b : Byte) (s : State) : Host.Outcome State Fault Refusal :=
  s.performOr (putbAnswer b s.toRegisters)

/-- PACK (R86). -/
def execPack (s : State) : Host.Outcome State Fault Refusal :=
  .next (s.perform (packAnswer s.toRegisters))

/-- UNPK (R87). -/
def execUnpk (b : Block) (s : State) : Host.Outcome State Fault Refusal :=
  .next (s.perform (unpkAnswer b s.toRegisters))

/-- GETB (R88). -/
def execGetb (s : State) : Host.Outcome State Fault Refusal :=
  .next (s.perform (getbAnswer s.toRegisters))

end Sys2Proof.Machine
end

