-- ==== Sys2Proof/Machine/System.lean ====
section
/-! DEFINITION. The system commands STAT and CLRF (spec 43_system.md R109, R110). -/

namespace Sys2Proof.Machine

/-- STAT on the registers: answer the status word; no side effect (R109). -/
def statAnswer (r : Registers) : Answer := r.respond 0 0 (statusWord r)

/-- CLRF on the registers: clear `FLT` (R110). -/
def clrfAnswer (r : Registers) : Answer := r.clearFault.respond 0 0 0

/-- STAT (R109). -/
def execStat (s : State) : Host.Outcome State Fault Refusal :=
  .next (s.perform (statAnswer s.toRegisters))

/-- CLRF (R110). -/
def execClrf (s : State) : Host.Outcome State Fault Refusal :=
  .next (s.perform (clrfAnswer s.toRegisters))

end Sys2Proof.Machine
end

