-- ==== Sys2Proof/Machine/Dispatch.lean ====
section
/-! DEFINITION. One arm per command (spec 30_encoding.md R50). -/

namespace Sys2Proof.Machine

def exec (i : Instr) (s : State) : Host.Outcome State Fault Refusal :=
  match i with
  | .encb b => Sys2Proof.Machine.execEncb b s
  | .decb b => Sys2Proof.Machine.execDecb b s
  | .putb b => Sys2Proof.Machine.execPutb b s
  | .pack => Sys2Proof.Machine.execPack s
  | .unpk b => Sys2Proof.Machine.execUnpk b s
  | .getb => Sys2Proof.Machine.execGetb s
  | .start => Sys2Proof.Machine.execStart s
  | .enc p => Sys2Proof.Machine.execEnc p s
  | .dec c => Sys2Proof.Machine.execDec c s
  | .stat => Sys2Proof.Machine.execStat s
  | .clrf => Sys2Proof.Machine.execClrf s

end Sys2Proof.Machine
end

