-- ==== Sys2Proof/Machine/Fetch.lean ====
section
/-! DEFINITION. What one host action does (spec 00_scope.md R10): a command word is decoded and executed, an illegal
word takes the fault ILLEGAL_OP, and reset and the taking of a response have their own effects. -/

namespace Sys2Proof.Machine

/-- Accept one command word (30_encoding.md R51): the command it decodes to, or the fault ILLEGAL_OP with its operand
ignored (R57). -/
def acceptWord (w : CmdWord) (s : State) : Host.Outcome State Fault Refusal :=
  match decode w with
  | .ok i => exec i s
  | .error _ => .next (s.raise .illegalOp)

/-- The effect of one host action on the machine. -/
def performAction (a : HostAction) (s : State) : Host.Outcome State Fault Refusal :=
  match a with
  | .reset => .next s.assertReset
  | .command w => acceptWord w s
  | .take => .next s.deliver

/-- One step: take the host's next action and perform it; with none presented, hold the state. -/
def stepInputs (s : State) : Host.Outcome State Fault Refusal :=
  match s.inputs with
  | [] => .next s.hold
  | a :: rest => performAction a (s.withInputs rest)

/-- The state in which a table row's word is the host's next command (log entry 1). -/
def presentTableWord (s : State) (nbits w : Nat) : State :=
  s.withInputs (.command (tableWord nbits w) :: s.inputs)

end Sys2Proof.Machine
end

