-- ==== Sys2Proof/Machine/Step.lean ====
section
/-! DEFINITION. The step of the machine and the placing of a command where the step takes its next one (spec
00_scope.md R10; log entry 1). -/

namespace Sys2Proof.Machine

/-- One step of CORE: one host action, or none. -/
def step (s : State) : Host.Outcome State Fault Refusal := stepInputs s

/-- The state in which a command word is the next one the host presents: it is put before the actions still to come,
and nothing else changes. -/
def State.withFetchWord (s : State) (nbits w : Nat) : State := presentTableWord s nbits w

end Sys2Proof.Machine
end

