-- ==== Sys2Proof/Machine/Run.lean ====
section
/-! DEFINITION. A run: a finite sequence of host actions performed one after the other, each completely before the
next begins (spec 00_scope.md R10; 20_memory.md R44; 70_reset_and_hazards.md R141). -/

namespace Sys2Proof.Machine

/-- Perform host actions in order, stopping where one gives no next state. -/
def runActions : List HostAction → State → Host.Outcome State Fault Refusal
  | [], s => .next s
  | a :: rest, s =>
    match performAction a s with
    | .next t => runActions rest t
    | .fault r => .fault r
    | .refused r => .refused r

/-- Present command words in order. -/
def runWords (ws : List CmdWord) (s : State) : Host.Outcome State Fault Refusal :=
  runActions (ws.map .command) s

/-- Present commands in order, each by its canonical word. -/
def runInstrs (is : List Instr) (s : State) : Host.Outcome State Fault Refusal :=
  runWords (is.map encode) s

/-- A run has ended: the host has no action left and no response is still to be delivered (70_reset_and_hazards.md R141);
CORE has no state of its own for it. Along a run without reset, that is when the response to its last command has been
delivered. DESIGN CHOICE (log entry 18): R141 speaks of delivery only; a response that reset withdrew is never delivered
(R131), and a run whose last command's response was withdrawn, or that has no command, counts as ended once no action is
left. -/
abbrev RunEnded (s : State) : Prop := s.inputs = [] ∧ s.pending = []

/-- A whole run over command words: present each of them, then take the response to each. -/
def wholeRun (ws : List CmdWord) : List HostAction :=
  ws.map .command ++ List.replicate ws.length .take

/-- The next state an outcome holds, if it is one. -/
def nextOf : Host.Outcome State Fault Refusal → Option State
  | .next t => some t
  | .fault _ => none
  | .refused _ => none

/-- The plaintext blocks a command stream gives to ENC, in order (42_cbc.md R99). -/
def encOperands (ws : List CmdWord) : List Block :=
  ws.filterMap fun w => match decode w with
    | .ok (.enc p) => some p
    | _ => none

/-- The ciphertext blocks a command stream gives to DEC, in order (42_cbc.md R100). -/
def decOperands (ws : List CmdWord) : List Block :=
  ws.filterMap fun w => match decode w with
    | .ok (.dec c) => some c
    | _ => none

/-- The DATA of the responses that answer ENC commands, each response standing beside its command word. -/
def encResults (ws : List CmdWord) (rs : List Response) : List Block :=
  (ws.zip rs).filterMap fun (w, r) => match decode w with
    | .ok (.enc _) => some r.data
    | _ => none

/-- The DATA of the responses that answer DEC commands. -/
def decResults (ws : List CmdWord) (rs : List Response) : List Block :=
  (ws.zip rs).filterMap fun (w, r) => match decode w with
    | .ok (.dec _) => some r.data
    | _ => none

end Sys2Proof.Machine
end

