-- ==== Sys2Proof/Machine/Asm.lean ====
section
/-! DEFINITION. The assembler (spec 30_encoding.md R60, R61): what a line expands to, and the text of a line, as a
list of characters. What R60 leaves open of the text is log entry 13. -/

namespace Sys2Proof.Machine

/-- The host actions of a line: a command by its canonical word, a pseudo-instruction by its expansion, `reset` by the
reset action. A line that is not well formed is refused. -/
def expandLine (l : AsmLine) : Option (List HostAction) :=
  if l.wellFormed then
    match l with
    | .instr i => some [.command (encode i)]
    | .putbs bytes => some (bytes.map fun b => .command (encode (.putb b)))
    | .getbs n => some (List.replicate n (.command (encode .getb)))
    | .word w => some [.command w]
    | .reset => some [.reset]
    | .blank => some []
  else none

/-- The character that quotes a byte operand. -/
def quoteChar : Char := Char.ofNat 0x27

/-- A hexadecimal digit as R60 writes it. -/
def hexDigit (c : Char) : Option Nat :=
  if 0x30 ≤ c.toNat && c.toNat ≤ 0x39 then some (c.toNat - 0x30)
  else if 0x41 ≤ c.toNat && c.toNat ≤ 0x46 then some (c.toNat - 0x41 + 10)
  else none

/-- Read exactly `n` hexadecimal digits, most significant first. -/
def readDigits : Nat → Nat → List Char → Option (Nat × List Char)
  | 0, acc, cs => some (acc, cs)
  | _ + 1, _, [] => none
  | n + 1, acc, c :: cs =>
    match hexDigit c with
    | some d => readDigits n (16 * acc + d) cs
    | none => none

/-- Read `0x` and exactly `n` hexadecimal digits. -/
def readHex (n : Nat) : List Char → Option (Nat × List Char)
  | '0' :: 'x' :: cs => readDigits n 0 cs
  | _ => none

/-- A printable ASCII character, which stands for its code (R60). -/
def printable (c : Char) : Bool := 0x20 ≤ c.toNat && c.toNat ≤ 0x7E

/-- A byte operand: two hexadecimal digits, or one printable character in single quotes (R60). -/
def readByte (cs : List Char) : Option (Byte × List Char) :=
  match cs with
  | q :: c :: q' :: rest =>
    if q == quoteChar then
      if q' == quoteChar && printable c then some (BitVec.ofNat 8 c.toNat, rest) else none
    else (readHex 2 cs).map fun (v, rest) => (BitVec.ofNat 8 v, rest)
  | _ => none

/-- Drop leading spaces. -/
def skipBlanks (cs : List Char) : List Char := cs.dropWhile (· == ' ')

/-- Nothing but spaces and a comment is left of the line (R60). -/
def atEnd (cs : List Char) : Bool :=
  match skipBlanks cs with
  | [] => true
  | c :: _ => c == ';'

/-- The value read, if nothing but a comment follows it. -/
def complete {α : Type} : Option (α × List Char) → Option α
  | some (a, rest) => if atEnd rest then some a else none
  | none => none

/-- The byte list of PUTBS, separated by commas (R61); `fuel` bounds the number of bytes. -/
def readBytes : Nat → List Char → Option (List Byte)
  | 0, _ => none
  | fuel + 1, cs =>
    match readByte (skipBlanks cs) with
    | none => none
    | some (b, rest) =>
      if atEnd rest then some [b]
      else match skipBlanks rest with
        | ',' :: more => (readBytes fuel more).map (b :: ·)
        | _ => none

/-- The operand of a command by its format, and the command it makes (R60). -/
def readCommand (r : OpRow) (cs : List Char) : Option Instr :=
  match r.format with
  | .n => if atEnd cs then some (r.build 0) else none
  | .b => (complete (readByte (skipBlanks cs))).map fun b => r.build (b.setWidth 64)
  | .q => (complete (readHex 16 (skipBlanks cs))).map fun v => r.build (BitVec.ofNat 64 v)

/-- The count of GETBS, one decimal digit (R61). -/
def readCount (cs : List Char) : Option Nat :=
  match skipBlanks cs with
  | c :: rest => if 0x31 ≤ c.toNat && c.toNat ≤ 0x38 && atEnd rest then some (c.toNat - 0x30) else none
  | [] => none

/-- One line of a command stream (R60, R61); none where the text is no line of it. -/
def parseLine (text : List Char) : Option AsmLine :=
  let cs := skipBlanks text
  if atEnd cs then some .blank
  else
    let name := cs.takeWhile fun c => c != ' ' && c != ';'
    let rest := cs.drop name.length
    match opcodeMap.find? fun r => r.mnemonic.toList == name with
    | some r => (readCommand r rest).map .instr
    | none =>
      if name == "PUTBS".toList then (readBytes 8 rest).map .putbs
      else if name == "GETBS".toList then (readCount rest).map .getbs
      else if name == ".word".toList then
        (complete (readHex 18 (skipBlanks rest))).map fun v => .word (BitVec.ofNat 72 v)
      else if name == "reset".toList && atEnd rest then some .reset
      else none

/-- Assemble a command stream, one line after the other; none if some line is refused. -/
def assemble : List (List Char) → Option (List HostAction)
  | [] => some []
  | text :: more =>
    match parseLine text with
    | none => none
    | some l =>
      match expandLine l, assemble more with
      | some here, some later => some (here ++ later)
      | _, _ => none

end Sys2Proof.Machine
end

