-- ==== Sys2Proof/Machine/Build.lean ====
section
/-! DEFINITION. The two builds of the four rounds that the OPEN parameter IMPL chooses between (spec 00_scope.md R9;
40_block_transform.md R78). The commands use neither: they use the definitions R70 and R71, and the builds are stated
equal to those. Nothing here carries a time: one `clock` is one move of every stage to the next. -/

namespace Sys2Proof.Machine

/-- UNROLLED, encryption: a fixed wiring of bits and one XOR with a constant (R78, R74). -/
def unrolledEncrypt (B K : Block) : Block := rotl B 40 ^^^ keyMaskEnc K

/-- UNROLLED, decryption (R78, R74). -/
def unrolledDecrypt (B K : Block) : Block := rotr B 40 ^^^ keyMaskDec K

/-- The direction of a block in the pipeline. -/
inductive Direction where
  | encrypt
  | decrypt
  deriving DecidableEq, Repr

/-- One round of a direction (R69). -/
def Direction.round : Direction → Block → Block → Block
  | .encrypt => encRound
  | .decrypt => decRound

/-- The block transform of a direction (R70, R71). -/
def Direction.transform : Direction → Block → Block → Block
  | .encrypt => encryptBlock
  | .decrypt => decryptBlock

/-- A block in the rounds, with its direction. -/
abbrev InFlight := Direction × Block

/-- PIPELINED: four stages of one round each, each holding at most one block (R78). DESIGN CHOICE (log entry 17): R78
does not say whether blocks of both directions may be in the rounds at once; each block carries its own direction, so
the stages may hold one direction or both. -/
structure Pipeline where
  stage1 : Option InFlight
  stage2 : Option InFlight
  stage3 : Option InFlight
  stage4 : Option InFlight
  deriving DecidableEq, Repr

/-- The pipeline with no block in it. -/
def Pipeline.empty : Pipeline := ⟨none, none, none, none⟩

/-- A block through one round of its own direction. -/
def InFlight.advance (K : Block) (x : InFlight) : InFlight := (x.1, x.1.round x.2 K)

/-- One move: the block offered goes through round one into stage one, and each stage's block through the next
round of its own direction into the next stage (log entry 17). -/
def Pipeline.clock (K : Block) (offered : Option InFlight) (p : Pipeline) : Pipeline where
  stage1 := offered.map (InFlight.advance K)
  stage2 := p.stage1.map (InFlight.advance K)
  stage3 := p.stage2.map (InFlight.advance K)
  stage4 := p.stage3.map (InFlight.advance K)

/-- The pipeline after a sequence of moves, one offered block (or none) each. -/
def Pipeline.feed (K : Block) : List (Option InFlight) → Pipeline → Pipeline
  | [], p => p
  | offered :: rest, p => Pipeline.feed K rest (p.clock K offered)

/-- A block alone in the pipeline, read from the last stage after four moves. -/
def pipelined (d : Direction) (B K : Block) : Option Block :=
  (Pipeline.empty.feed K [some (d, B), none, none, none]).stage4.map Prod.snd

/-- A direction of the block transform as a build computes it. -/
def buildTransform : Config.Impl → Direction → Block → Block → Option Block
  | .unrolled, .encrypt, B, K => some (unrolledEncrypt B K)
  | .unrolled, .decrypt, B, K => some (unrolledDecrypt B K)
  | .pipelined, d, B, K => pipelined d B K

end Sys2Proof.Machine
end

