-- ==== Sys2Proof/Machine/Command.lean ====
section
/-! DEFINITION. CORE itself, as the spec says what it is: a function from the seven registers before a command and the
command word to the seven registers after it and one response word (spec 00_scope.md R10; 10_state.md R15, R16 (b),
(c)). No list of actions or responses occurs here. -/

namespace Sys2Proof.Machine

/-- The function of a command: registers in, registers and one response out. Only PUTB on a count no run reaches has no
answer (log entry 6). -/
def commandAnswer (i : Instr) (r : Registers) : Except Fault Answer :=
  match i with
  | .encb b => .ok (encbAnswer b r)
  | .decb b => .ok (decbAnswer b r)
  | .putb b => putbAnswer b r
  | .pack => .ok (packAnswer r)
  | .unpk b => .ok (unpkAnswer b r)
  | .getb => .ok (getbAnswer r)
  | .start => .ok (startAnswer r)
  | .enc p => .ok (encAnswer p r)
  | .dec c => .ok (decAnswer c r)
  | .stat => .ok (statAnswer r)
  | .clrf => .ok (clrfAnswer r)

/-- The function of a command word: an illegal word answers ILLEGAL_OP (30_encoding.md R51, R57). -/
def wordAnswer (w : CmdWord) (r : Registers) : Except Fault Answer :=
  match decode w with
  | .ok i => commandAnswer i r
  | .error _ => .ok (r.raise .illegalOp)

end Sys2Proof.Machine
end

