-- ==== Sys2Proof/Machine/Ports.lean ====
section
/-! DEFINITION. The signal level: the lines of CORE's ports at one rising edge of `clk`, which transactions the edge
carries, and the rules both sides keep (spec 30_encoding.md R52, R53; 70_reset_and_hazards.md R129, R131). When CORE
raises `cmd_ready` and `rsp_valid` is left OPEN (IMPL and LAT), so both are given by the edge; a waveform is any
sequence of edges that keeps the rules (log entry 10). Whether a response may be delivered at the very edge that accepts
its command is left open too: the model allows it and does not ask for it (log entry 16). -/

namespace Sys2Proof.Machine

/-- The lines at one rising edge of `clk` (R52). -/
structure Edge where
  rst : Bool
  cmdValid : Bool
  cmdReady : Bool
  cmd : CmdWord
  rspValid : Bool
  rspReady : Bool
  rsp : RspWord
  deriving DecidableEq, Repr

/-- A command is accepted at this edge (R52). -/
def Edge.accepts (e : Edge) : Bool := !e.rst && e.cmdValid && e.cmdReady

/-- A response is delivered at this edge (R52). -/
def Edge.delivers (e : Edge) : Bool := !e.rst && e.rspValid && e.rspReady

/-- The host actions an edge carries: a reset alone, or an acceptance, then a delivery (R52, R129). DESIGN CHOICE (log
entry 16): the order inside one edge is the model's; with the acceptance first, the response delivered may be that of
the command accepted at the same edge (`LAT` = 0) when none is older, and is the same as in the other order when one
is. -/
def Edge.actions (e : Edge) : List HostAction :=
  if e.rst then [.reset]
  else (if e.accepts then [.command e.cmd] else []) ++ (if e.delivers then [.take] else [])

/-- The responses there are to present at an edge: those not yet delivered, oldest first, and after them that of a
command accepted at this very edge (log entry 16). -/
def Edge.presentable (e : Edge) (s : State) : List Response :=
  if e.accepts then
    match acceptWord e.cmd s with
    | .next t => t.pending
    | _ => s.pending
  else s.pending

/-- What CORE may drive at an edge in a given state: while `rst` is 1 neither `cmd_ready` nor `rsp_valid` (R129); with
`rsp_valid`, the oldest response not yet delivered (R52, R53). DESIGN CHOICE (log entry 16): `LAT` is "finite, otherwise
unspecified" (00_scope.md R9), so the response of a command accepted at this edge may be driven at this edge or at any
later one. -/
def Edge.driven (e : Edge) (s : State) : Bool :=
  (!e.rst || (!e.cmdReady && !e.rspValid)) &&
    (!e.rspValid || (match e.presentable s with
      | [] => false
      | r :: _ => e.rsp == r.toWord))

/-- Both senders hold their word until it is transferred (R52); a response waiting when `rst` rises is withdrawn
(R131). -/
def Edge.heldInto (e next : Edge) : Bool :=
  (!(e.cmdValid && !e.accepts) || (next.cmdValid && next.cmd == e.cmd)) &&
    (!(e.rspValid && !e.delivers && !next.rst) || (next.rspValid && next.rsp == e.rsp))

/-- A waveform that keeps the rules of R52 and R129 from a given state on. -/
def legalWave : List Edge → State → Bool
  | [], _ => true
  | e :: rest, s =>
    e.driven s && (match rest with
      | [] => true
      | next :: _ => e.heldInto next) &&
    (match runActions e.actions s with
      | .next t => legalWave rest t
      | _ => false)

/-- The transactions of a waveform, in order. -/
def waveActions (es : List Edge) : List HostAction := es.flatMap Edge.actions

/-- The response words the host takes from the `rsp` lines of a waveform, in order. -/
def waveDelivered (es : List Edge) : List RspWord := (es.filter Edge.delivers).map Edge.rsp

end Sys2Proof.Machine
end

