-- ==== Sys2Proof/Machine/Procedures.lean ====
section
/-! DEFINITION. How a host uses CORE: the command sequences the spec describes for bytes, blocks, chunks and chains kept
by the host (spec 41_marshal.md R89, R90; 42_cbc.md R99, R100, R104, R105, R108), and where their results stand. -/

namespace Sys2Proof.Machine

/-- Pack one group of at most 8 bytes: a PUTB each, then PACK (R89). -/
def packGroup (y : List Byte) : List Instr := y.map .putb ++ [.pack]

/-- The `i`-th group of 8 bytes of a byte sequence; the last one may be shorter (R84). -/
def byteGroup (t : List Byte) (i : Nat) : List Byte := (t.drop (8 * i)).take 8

/-- Pack a byte sequence group by group (R89). -/
def packStream (t : List Byte) : List Instr :=
  (List.range (blockCount t.length)).flatMap fun i => packGroup (byteGroup t i)

/-- Unpack one block: UNPK, then eight GETB (R90). -/
def unpackBlock (x : Block) : List Instr := .unpk x :: List.replicate 8 .getb

/-- Unpack a block sequence (R90). -/
def unpackStream (s : List Block) : List Instr := s.flatMap unpackBlock

/-- Encrypt a chain: START, then ENC for each block in order (R99, R104). -/
def encryptChain (ps : List Block) : List Instr := .start :: ps.map .enc

/-- Decrypt a chain: START, then DEC for each block in order (R100, R105). -/
def decryptChain (cs : List Block) : List Instr := .start :: cs.map .dec

/-- The operands a host gives to ENCB to chain by itself from `iv` (R108). -/
def hostChainOperands (ps : List Block) (iv : Block) : List Block :=
  List.zipWith (· ^^^ ·) (iv :: cbcEncrypt ps Config.key iv) ps

/-- The host duties that CORE checks by faulting, over a stream of words from a packer of `packed` bytes and an unpacker
of `unread` bytes: only defined opcodes, at most eight PUTB before a PACK, GETB only while bytes are left
(70_reset_and_hazards.md R136 (e), (f); 30_encoding.md R57). -/
def dutiesKept : List CmdWord → Nat → Nat → Bool
  | [], _, _ => true
  | w :: ws, packed, unread =>
    match decode w with
    | .error _ => false
    | .ok (.putb _) => decide (packed < 8) && dutiesKept ws (packed + 1) unread
    | .ok .pack => dutiesKept ws 0 unread
    | .ok (.unpk _) => dutiesKept ws packed 8
    | .ok .getb => decide (0 < unread) && dutiesKept ws packed (unread - 1)
    | .ok _ => dutiesKept ws packed unread

/-- The responses that answer PACK, each response standing beside its command. -/
def packResponses (is : List Instr) (rs : List Response) : List Response :=
  (is.zip rs).filterMap fun (i, r) => match i with
    | .pack => some r
    | _ => none

/-- The responses that answer GETB. -/
def getbResponses (is : List Instr) (rs : List Response) : List Response :=
  (is.zip rs).filterMap fun (i, r) => match i with
    | .getb => some r
    | _ => none

/-- The bytes of a chunk as a host recovers them: the blocks of the chunk encrypted as one chain, decrypted as one
chain, turned into bytes and cut to the recorded length (R104, R105). -/
def recoverChunk (t : List Byte) : List Byte :=
  (blocksToBytes (cbcDecrypt (cbcEncrypt (bytesToBlocks t) Config.key Config.ivStart)
    Config.key Config.ivStart)).take t.length

/-- The ciphertext bytes of a chunk (R104 (1) to (5)), as the functions give them. -/
def ciphertextBytes (t : List Byte) : List Byte :=
  blocksToBytes (cbcEncrypt (bytesToBlocks t) Config.key Config.ivStart)

/-- The responses to PACK that carry a block: CNT 0 is "no block" (70_reset_and_hazards.md R136 (h)). -/
def packedBlocks (packs : List Response) : List Response := packs.filter fun r => r.cnt != 0

/-- The check on ciphertext: every PACK that gave a block gave CNT 8; otherwise the stream is malformed and there are no
blocks to decrypt (41_marshal.md R91; 42_cbc.md R105 (1); 70_reset_and_hazards.md R136 (h)). -/
def ciphertextBlocks (packs : List Response) : Option (List Block) :=
  if (packedBlocks packs).all (fun r => r.cnt == 8) then some ((packedBlocks packs).map Response.data) else none

/-- Issue commands and collect their responses. -/
def collect (is : List Instr) (s : State) : Option (State × List Response) :=
  (nextOf (runInstrs is s)).map fun t => (t, t.pending.drop s.pending.length)

/-- What a host gets from its decryption procedure. -/
inductive HostResult where
  /-- The recovered chunk, and the machine after it. -/
  | chunk (bytes : List Byte) (after : State)
  /-- Malformed input: some PACK gave CNT 1 to 7, and no DEC was issued (R91). -/
  | malformed (after : State)
  /-- The machine stopped (log entry 6). -/
  | stopped
  deriving DecidableEq, Repr

/-- Encrypt a chunk of bytes through the commands (R104): START; the blocks formed by the packer; ENC for each in order;
the ciphertext read out through the unpacker. The result is the machine after it, the ciphertext bytes and the recorded
length. -/
def hostEncrypt (chunk : List Byte) (s : State) : Option (State × List Byte × Nat) :=
  (collect [.start] s).bind fun (s1, _) =>
  (collect (packStream chunk) s1).bind fun (s2, packed) =>
  (collect (((packResponses (packStream chunk) packed).map Response.data).map .enc) s2).bind fun (s3, blocks) =>
  (collect (unpackStream (blocks.map Response.data)) s3).map fun (s4, bytes) =>
    (s4, (getbResponses (unpackStream (blocks.map Response.data)) bytes).map (fun r => byteOf r.data), chunk.length)

/-- Decrypt ciphertext bytes through the commands (R105): (1) the blocks formed by the packer, every PACK checked for
CNT 8; (2) START; (3) DEC for each block in order; (4) `blocks_to_bytes` of the DATA values; (5) cut to the recorded
length. A malformed stream is reported and no DEC is issued. -/
def hostDecrypt (cipher : List Byte) (length : Nat) (s : State) : HostResult :=
  match collect (packStream cipher) s with
  | none => .stopped
  | some (s1, packed) =>
    match ciphertextBlocks (packResponses (packStream cipher) packed) with
    | none => .malformed s1
    | some cs =>
      match collect (decryptChain cs) s1 with
      | none => .stopped
      | some (s2, answers) => .chunk ((blocksToBytes ((answers.drop 1).map Response.data)).take length) s2

end Sys2Proof.Machine
end

