-- ==== Sys2Proof/Safety.lean ====
section
/-! DEFINITION. What a good state and a good run of CORE are, in the terms claims use (spec 10_state.md R28;
30_encoding.md R54, R55; 60_exceptions.md R122). Each predicate is decidable. -/

namespace Sys2Proof.Machine

/-- The packer: `PKN` at most 8 and every lane not counted zero (10_state.md R28 (a), (b)). -/
abbrev PackerOk (s : State) : Prop :=
  s.pkn.toNat ≤ 8 ∧ ∀ k : Fin 8, s.pkn.toNat ≤ k.val → lane s.pk k.val = 0

/-- The unpacker: `UQN` at most 8 and `UQ < 2^(8*UQN)` (10_state.md R28 (c), (d)). -/
abbrev UnpackerOk (s : State) : Prop :=
  s.uqn.toNat ≤ 8 ∧ s.uq.toNat < 2 ^ (8 * s.uqn.toNat)

/-- The fault register holds 0 or one of the three codes (10_state.md R28 (e)). -/
abbrev FaultRegisterOk (s : State) : Prop := s.flt.toNat ≤ 3

/-- The invariants of R28. -/
abbrev RegistersOk (s : State) : Prop := PackerOk s ∧ UnpackerOk s ∧ FaultRegisterOk s

/-- A response CORE can give: CODE at most 3, CNT at most 8, and DATA zero in a fault (30_encoding.md R54, R55). -/
abbrev ResponseOk (r : Response) : Prop :=
  r.code.toNat ≤ 3 ∧ r.cnt.toNat ≤ 8 ∧ (r.code ≠ 0 → r.data = 0)

/-- Every response given so far is one CORE can give. -/
abbrev ResponsesOk (s : State) : Prop := ∀ r ∈ s.received ++ s.pending, ResponseOk r

/-- A fault is never forgotten: where FLT records one, or a response reports one, the run is marked
(60_exceptions.md R122). -/
abbrev FaultsRemembered (s : State) : Prop :=
  (s.flt ≠ 0 → s.faulted = true) ∧ ∀ r ∈ s.received ++ s.pending, r.code ≠ 0 → s.faulted = true

/-- The invariant every step keeps. -/
abbrev Inv (s : State) : Prop := RegistersOk s ∧ ResponsesOk s ∧ FaultsRemembered s

/-- A run without fault so far (60_exceptions.md R122): the premise claims about a host program take. -/
abbrev FaultFree (s : State) : Prop := s.faulted = false

/-- The seven registers of two states agree (10_state.md R15). -/
abbrev SameRegisters (s t : State) : Prop := s.toRegisters = t.toRegisters

/-- The six registers other than FLT agree: what a faulting command must leave (60_exceptions.md R118). -/
abbrev SameExceptFlt (s t : State) : Prop :=
  s.iv = t.iv ∧ s.idx = t.idx ∧ s.pk = t.pk ∧ s.pkn = t.pkn ∧ s.uq = t.uq ∧ s.uqn = t.uqn

/-- From `s` to `t` CORE produced exactly the response `r`, nothing was delivered, and the host's coming actions are
the same (30_encoding.md R53). -/
abbrev Answers (s t : State) (r : Response) : Prop :=
  t.pending = s.pending ++ [r] ∧ t.received = s.received ∧ t.inputs = s.inputs

/-- Issued twice in a row from `s`, the command gives the same response twice and the same registers as issuing it once
(20_memory.md R42). -/
def IdempotentAt (i : Instr) (s : State) : Prop :=
  ∃ t u r, exec i s = .next t ∧ exec i t = .next u ∧ Answers s t r ∧ Answers t u r ∧ SameRegisters t u

/-- Two states agree on the registers the access table marks read for a command (10_state.md R29). -/
abbrev readsAgree (i : Instr) (s t : State) : Prop :=
  match i with
  | .encb _ => True
  | .decb _ => True
  | .putb _ => s.pk = t.pk ∧ s.pkn = t.pkn
  | .pack => s.pk = t.pk ∧ s.pkn = t.pkn
  | .unpk _ => True
  | .getb => s.uq = t.uq ∧ s.uqn = t.uqn
  | .start => True
  | .enc _ => s.iv = t.iv ∧ s.idx = t.idx
  | .dec _ => s.iv = t.iv ∧ s.idx = t.idx
  | .stat => s.idx = t.idx ∧ s.pkn = t.pkn ∧ s.uqn = t.uqn ∧ s.flt = t.flt
  | .clrf => True

/-- Two states agree on the registers the access table marks written for a command that does not fault (R29). -/
abbrev writesAgree (i : Instr) (s t : State) : Prop :=
  match i with
  | .encb _ => True
  | .decb _ => True
  | .putb _ => s.pk = t.pk ∧ s.pkn = t.pkn
  | .pack => s.pk = t.pk ∧ s.pkn = t.pkn
  | .unpk _ => s.uq = t.uq ∧ s.uqn = t.uqn
  | .getb => s.uq = t.uq ∧ s.uqn = t.uqn
  | .start => s.iv = t.iv ∧ s.idx = t.idx
  | .enc _ => s.iv = t.iv ∧ s.idx = t.idx
  | .dec _ => s.iv = t.iv ∧ s.idx = t.idx
  | .stat => True
  | .clrf => s.flt = t.flt

/-- The eleven opcodes (30_encoding.md R50). -/
def definedOps : List Byte := [0x10, 0x11, 0x20, 0x21, 0x22, 0x23, 0x30, 0x31, 0x32, 0x40, 0x41]

/-- The number of one bits of a block (40_block_transform.md R68). -/
def onesCount (x : Block) : Nat := (List.range 64).countP fun j => x.getLsbD j

end Sys2Proof.Machine
end

