-- ==== Sys2Proof/Certificates/Slice0/Obligations.lean ====
section
/-! DEFINITION. What the provers are to settle about CORE: statements from the numbered rules of spec/, family by
family. No statement speaks of a particular host program. -/

open Sys2Proof Sys2Proof.Machine

/-! ### Encoding -/

/-- 30_encoding.md R48, R60: every command, at every operand value, decodes from its canonical word. -/
def Obligations.EncodedCommandDecodesToItself : Prop :=
  ∀ i : Instr, i.wellFormed = true → decode (encode i) = .ok i ∧ (encode i).canonical = true

/-- 30_encoding.md R48, R51: a word that decodes is the command's canonical word but for ignored bits, and it is
canonical exactly when the encoder gives it. -/
def Obligations.DecodedWordReencodesCanonically : Prop :=
  ∀ (w : CmdWord) (i : Instr), decode w = .ok i →
    encode i = canonicalize w ∧ (w.canonical = true ↔ encode i = w)

/-- 30_encoding.md R51: the decoder gives every word exactly one meaning, by its opcode alone, with the operand bits its
format uses; no two rows overlap. -/
def Obligations.DecoderIsTotalByOpcode : Prop :=
  (opcodeMap.map OpRow.op).Nodup ∧ opcodeMap.map OpRow.op = definedOps ∧
  ∀ w : CmdWord,
    (opOf w ∈ definedOps ∧ ∃ i r, rowOf (opOf w) = some r ∧ decode w = .ok i ∧ i.op = opOf w ∧
      i.operand = operandOf w &&& r.format.usedBits) ∨
    (opOf w ∉ definedOps ∧ decode w = .error (.illegalOp (opOf w)))

/-- 30_encoding.md R48: three formats; the bits a format does not use never matter, and the canonical word has them
zero. -/
def Obligations.IgnoredOperandBitsHaveNoEffect : Prop :=
  opcodeMap.map (fun r => (r.mnemonic, r.format)) =
    [("ENCB", .q), ("DECB", .q), ("PUTB", .b), ("PACK", .n), ("UNPK", .q), ("GETB", .n), ("START", .n),
      ("ENC", .q), ("DEC", .q), ("STAT", .n), ("CLRF", .n)] ∧
  (∀ (op : Byte) (x y : Block) (r : OpRow), rowOf op = some r →
    (r.format = .n ∨ (r.format = .b ∧ x.extractLsb' 0 8 = y.extractLsb' 0 8) ∨ (r.format = .q ∧ x = y)) →
    decode (packWord op x) = decode (packWord op y) ∧
      ∀ s : State, acceptWord (packWord op x) s = acceptWord (packWord op y) s) ∧
  ∀ i : Instr, ∃ r, rowOf i.op = some r ∧
    (r.format = .n → i.operand = 0) ∧ (r.format = .b → i.operand.extractLsb' 8 56 = 0)

/-- 30_encoding.md R62: the canonical words of the examples, and the two words with ignored bits set. -/
def Obligations.EncodingExamplesDecode : Prop :=
  encode (.encb 0x0047464544434241) = 0x100047464544434241 ∧
  encode (.decb 0x076C35156DEE6314) = 0x11076C35156DEE6314 ∧
  encode (.putb 0x41) = 0x200000000000000041 ∧
  encode .pack = 0x210000000000000000 ∧
  encode (.unpk 0x0123456789ABCDEF) = 0x220123456789ABCDEF ∧
  encode .getb = 0x230000000000000000 ∧
  encode .start = 0x300000000000000000 ∧
  encode (.enc 0x6369757120656854) = 0x316369757120656854 ∧
  encode (.dec 0x2146207643DD5770) = 0x322146207643DD5770 ∧
  encode .stat = 0x400000000000000000 ∧
  encode .clrf = 0x410000000000000000 ∧
  decode 0x100047464544434241 = .ok (.encb 0x0047464544434241) ∧
  decode 0x200000000000000041 = .ok (.putb 0x41) ∧
  decode 0x316369757120656854 = .ok (.enc 0x6369757120656854) ∧
  decode 0x400000000000000000 = .ok .stat ∧
  decode 0x2000000000DEAD0041 = .ok (.putb 0x41) ∧
  decode 0x30FFFFFFFFFFFFFFFF = .ok .start

/-- 30_encoding.md R57: every word whose opcode is none of the eleven faults with ILLEGAL_OP, its operand ignored, and
changes no register but FLT. -/
def Obligations.IllegalWordRaisesIllegalOp : Prop :=
  ((List.range 256).filter fun n => !definedOps.contains (BitVec.ofNat 8 n)).length = 245 ∧
  opOf 0 ∉ definedOps ∧ opOf (BitVec.allOnes 72) ∉ definedOps ∧
  (⟨1, 0, 0⟩ : Response).toWord = 0x100000000000000000 ∧
  ∀ (w : CmdWord) (s : State), opOf w ∉ definedOps →
    ∃ t, acceptWord w s = .next t ∧ Answers s t ⟨1, 0, 0⟩ ∧ SameExceptFlt s t ∧
      t.flt = if s.flt = 0 then 1 else s.flt

/-- 30_encoding.md R54: the fields of a response word, its status byte, and the values never produced. -/
def Obligations.ResponseWordHasItsFields : Prop :=
  (∀ r : Response,
    r.toWord.getLsbD 71 = false ∧ r.toWord.extractLsb' 68 3 = r.code ∧ r.toWord.extractLsb' 64 4 = r.cnt ∧
    r.toWord.extractLsb' 0 64 = r.data ∧ r.statusByte.toNat = r.code.toNat * 16 + r.cnt.toNat) ∧
  ∀ (w : CmdWord) (s t : State) (r : Response), RegistersOk s → acceptWord w s = .next t → Answers s t r →
    r.code.toNat ≤ 3 ∧ r.cnt.toNat ≤ 8

/-! ### Rotation and the block transform -/

/-- 40_block_transform.md R63, R64, R65, R70, R71: the two rotations by their formulas for counts 1 to 63, the identity at
count 0, and exactly four rounds in each direction, each with the same key. -/
def Obligations.RotationsAndRoundsFollowTheirFormulas : Prop :=
  (∀ (x : Block) (c : Fin 64), 1 ≤ c.val →
    rotl x c = (x <<< c.val) ||| (x >>> (64 - c.val)) ∧ rotr x c = (x >>> c.val) ||| (x <<< (64 - c.val))) ∧
  (∀ x : Block, rotl x 0 = x ∧ rotr x 0 = x) ∧
  ∀ B K : Block,
    encryptBlock B K = encRound (encRound (encRound (encRound B K) K) K) K ∧
    decryptBlock B K = decRound (decRound (decRound (decRound B K) K) K) K

/-- 40_block_transform.md R66: the rotations invert each other at every count, 0 included. -/
def Obligations.RotationsAreInverse : Prop :=
  ∀ (x : Block) (c : Fin 64), rotl (rotr x c) c = x ∧ rotr (rotl x c) c = x

/-- 40_block_transform.md R67: where each bit goes, and the composition of rotations. -/
def Obligations.RotationMovesEachBit : Prop :=
  (∀ (x : Block) (c j : Fin 64),
    (rotl x c).getLsbD j.val = x.getLsbD ((j.val + 64 - c.val) % 64) ∧
    (rotr x c).getLsbD j.val = x.getLsbD ((j.val + c.val) % 64)) ∧
  (∀ (x : Block) (c : Fin 64), rotl x c = rotr x (Fin.ofNat 64 (64 - c.val))) ∧
  (∀ (x : Block) (a b : Fin 64), rotl (rotl x a) b = rotl x (Fin.ofNat 64 (a.val + b.val))) ∧
  (∀ c : Fin 64, rotl 0 c = 0 ∧ rotr 0 c = 0 ∧
    rotl 0xFFFFFFFFFFFFFFFF c = 0xFFFFFFFFFFFFFFFF ∧ rotr 0xFFFFFFFFFFFFFFFF c = 0xFFFFFFFFFFFFFFFF) ∧
  ∀ x : Block, (rotl x 10).extractLsb' 0 10 = x.extractLsb' 54 10

/-- 40_block_transform.md R68: rotation distributes over XOR and keeps the number of one bits. -/
def Obligations.RotationDistributesOverXor : Prop :=
  ∀ (a b : Block) (c : Fin 64),
    rotl (a ^^^ b) c = rotl a c ^^^ rotl b c ∧ rotr (a ^^^ b) c = rotr a c ^^^ rotr b c ∧
    onesCount (rotl a c) = onesCount a ∧ onesCount (rotr a c) = onesCount a

/-- 40_block_transform.md R69, R72: the rounds of the two directions invert each other under every key, so decryption
inverts encryption for every block and key, and encryption is a bijection. -/
def Obligations.BlockTransformIsInvertible : Prop :=
  (∀ b K : Block,
    encRound b K = rotl b 10 ^^^ K ∧ decRound b K = rotr (b ^^^ K) 10 ∧
    decRound (encRound b K) K = b ∧ encRound (decRound b K) K = b) ∧
  ∀ K : Block,
    (∀ B, decryptBlock (encryptBlock B K) K = B) ∧ (∀ B, encryptBlock (decryptBlock B K) K = B) ∧
    Function.Bijective fun B => encryptBlock B K

/-- 40_block_transform.md R74: the four rounds collapse to one rotation by 40 and one XOR, a permutation of the bytes
followed by a constant. -/
def Obligations.TransformHasClosedForm : Prop :=
  (∀ B K : Block,
    encryptBlock B K = rotl B 40 ^^^ (rotl K 30 ^^^ rotl K 20 ^^^ rotl K 10 ^^^ K) ∧
    decryptBlock B K = rotr B 40 ^^^ (rotr K 40 ^^^ rotr K 30 ^^^ rotr K 20 ^^^ rotr K 10) ∧
    keyMaskEnc K = rotl K 30 ^^^ rotl K 20 ^^^ rotl K 10 ^^^ K ∧
    keyMaskDec K = rotr K 40 ^^^ rotr K 30 ^^^ rotr K 20 ^^^ rotr K 10 ∧
    keyMaskDec K = rotr (keyMaskEnc K) 40) ∧
  (∀ (B : Block) (k : Fin 8), lane (rotl B 40) ((k.val + 5) % 8) = lane B k.val) ∧
  Config.key = 0x1234DEADBEEFCAFE ∧
  rotl Config.key 10 = 0xD37AB6FBBF2BF848 ∧ rotl Config.key 20 = 0xEADBEEFCAFE1234D ∧
  rotl Config.key 30 = 0x6FBBF2BF848D37AB ∧
  keyMaskEnc Config.key = 0x442E74152AA82650 ∧ keyMaskDec Config.key = 0x152AA82650442E74

/-- 40_block_transform.md R78: both builds compute the functions of R70 and R71, the pipelined one for the block offered
first, in either direction, whatever the pipeline held and whatever follows, with four blocks in the rounds at once. That
blocks of both directions may be in it together is the model's choice (log entry 17). -/
def Obligations.BothBuildsComputeTheTransform : Prop :=
  (∀ (impl : Config.Impl) (B K : Block),
    buildTransform impl .encrypt B K = some (encryptBlock B K) ∧
    buildTransform impl .decrypt B K = some (decryptBlock B K)) ∧
  ∀ (p : Pipeline) (K B : Block) (o2 o3 o4 : Option InFlight),
    (p.feed K [some (.encrypt, B), o2, o3, o4]).stage4 = some (.encrypt, encryptBlock B K) ∧
    (p.feed K [some (.decrypt, B), o2, o3, o4]).stage4 = some (.decrypt, decryptBlock B K)

/-- 40_block_transform.md R76: ENCB, with its corner cases and its example. -/
def Obligations.EncbAnswersEncryptedBlock : Prop :=
  (∀ w : CmdWord, opOf w = 0x10 → decode w = .ok (.encb (operandOf w))) ∧
  (∀ (s : State) (b : Block),
    exec (.encb b) s = .next { s with pending := s.pending ++ [⟨0, 0, encryptBlock b Config.key⟩] } ∧
    IdempotentAt (.encb b) s ∧
    ∃ t, exec (.enc b) { s with iv := 0 } = .next t ∧
      t.pending = s.pending ++ [⟨0, 0, encryptBlock b Config.key⟩]) ∧
  encryptBlock 0 Config.key = 0x442E74152AA82650 ∧
  encryptBlock 0xFFFFFFFFFFFFFFFF Config.key = 0xBBD18BEAD557D9AF ∧
  encryptBlock Config.key Config.key = 0xABE48A071E768BEE ∧
  (⟨0, 0, encryptBlock 0x0047464544434241 Config.key⟩ : Response).toWord = 0x00076C35156DEE6314

/-- 40_block_transform.md R77: DECB, with its corner cases and its example. -/
def Obligations.DecbAnswersDecryptedBlock : Prop :=
  (∀ w : CmdWord, opOf w = 0x11 → decode w = .ok (.decb (operandOf w))) ∧
  (∀ (s : State) (b : Block),
    exec (.decb b) s = .next { s with pending := s.pending ++ [⟨0, 0, decryptBlock b Config.key⟩] } ∧
    IdempotentAt (.decb b) s ∧
    ∃ t u, exec (.encb b) s = .next t ∧ Answers s t ⟨0, 0, encryptBlock b Config.key⟩ ∧
      exec (.decb (encryptBlock b Config.key)) t = .next u ∧ Answers t u ⟨0, 0, b⟩) ∧
  decryptBlock 0 Config.key = 0x152AA82650442E74 ∧
  decryptBlock 0xFFFFFFFFFFFFFFFF Config.key = 0xEAD557D9AFBBD18B ∧
  decryptBlock 0x442E74152AA82650 Config.key = 0 ∧
  (⟨0, 0, decryptBlock 0x076C35156DEE6314 Config.key⟩ : Response).toWord = 0x000047464544434241

/-! ### The marshaler -/

/-- 41_marshal.md R79, R80: the two byte functions by their formulas. -/
def Obligations.ByteFunctionsFollowTheirFormulas : Prop :=
  (∀ (x : Block) (k : Fin 8),
    (blockToBytes x)[k] = x.extractLsb' (8 * k.val) 8 ∧
    zextByte (blockToBytes x)[k] = (x >>> (8 * k.val)) &&& 0xFF) ∧
  ∀ y : Vector Byte 8,
    bytesToBlock y =
      zextByte y[0] ||| zextByte y[1] <<< 8 ||| zextByte y[2] <<< 16 ||| zextByte y[3] <<< 24 |||
        zextByte y[4] <<< 32 ||| zextByte y[5] <<< 40 ||| zextByte y[6] <<< 48 ||| zextByte y[7] <<< 56

/-- 41_marshal.md R81: bytes and blocks convert back and forth without loss. -/
def Obligations.ByteMarshalingRoundTrips : Prop :=
  (∀ x : Block, bytesToBlock (blockToBytes x) = x) ∧ ∀ y : Vector Byte 8, blockToBytes (bytesToBlock y) = y

/-- 41_marshal.md R82: zero-padding puts the given bytes in the low lanes and zeros above, and hides their number. -/
def Obligations.PadBlockZeroFillsUpperLanes : Prop :=
  (∀ (y : List Byte) (k : Fin 8), y.length ≤ 8 →
    lane (padBlock y) k.val = if h : k.val < y.length then y[k.val] else 0) ∧
  (∀ y : Vector Byte 8, padBlock y.toList = bytesToBlock y) ∧
  padBlock [] = 0 ∧
  ∀ y : List Byte, y.length < 8 → padBlock (y ++ [0]) = padBlock y

/-- 41_marshal.md R83, R84: cutting bytes into blocks loses nothing but the length, which the last block's count keeps. -/
def Obligations.BlocksOfBytesRoundTrip : Prop :=
  (∀ t : List Byte,
    blocksToBytes (bytesToBlocks t) = t ++ List.replicate (8 * blockCount t.length - t.length) 0 ∧
    (bytesToBlocks t).length = blockCount t.length ∧
    (t ≠ [] → 1 ≤ lastBlockLength t ∧ lastBlockLength t ≤ 8 ∧
      t.length = 8 * (blockCount t.length - 1) + lastBlockLength t)) ∧
  ∀ s : List Block, bytesToBlocks (blocksToBytes s) = s

/-- 41_marshal.md R85: PUTB. It writes lane PKN and counts it, or faults on a full packer. -/
def Obligations.PutbPushesOneLane : Prop :=
  (∀ w : CmdWord, opOf w = 0x20 → decode w = .ok (.putb (w.extractLsb' 0 8))) ∧
  (∀ (s : State) (b : Byte), s.pkn = 8 →
    ∃ t, exec (.putb b) s = .next t ∧ Answers s t ⟨2, 8, 0⟩ ∧ SameExceptFlt s t ∧
      t.flt = if s.flt = 0 then 2 else s.flt) ∧
  (∀ (s : State) (b : Byte), s.pkn.toNat < 8 →
    ∃ t, exec (.putb b) s = .next t ∧ Answers s t ⟨0, t.pkn, 0⟩ ∧ t.pkn.toNat = s.pkn.toNat + 1 ∧
      (∀ k < 8, lane t.pk k = if k = s.pkn.toNat then b else lane s.pk k) ∧
      t.iv = s.iv ∧ t.idx = s.idx ∧ t.uq = s.uq ∧ t.uqn = s.uqn ∧ t.flt = s.flt ∧ t.faulted = s.faulted) ∧
  (∀ (s t : State) (b : Byte), PackerOk s → s.pkn.toNat < 8 → exec (.putb b) s = .next t →
    t.pk = s.pk ||| (zextByte b <<< (8 * s.pkn.toNat))) ∧
  ∃ t, exec (.putb 0x41) State.reset = .next t ∧ t.pk = 0x0000000000000041 ∧ t.pkn = 1 ∧
    t.pending.map Response.toWord = [0x010000000000000000]

/-- 41_marshal.md R86: PACK takes the block and its count and empties the packer; what it takes is the padded block of
the bytes pushed. -/
def Obligations.PackTakesThePaddedBlock : Prop :=
  (∀ w : CmdWord, opOf w = 0x21 → decode w = .ok .pack) ∧
  (∀ s : State,
    exec .pack s = .next { s with pk := 0, pkn := 0, pending := s.pending ++ [⟨0, s.pkn, s.pk⟩] }) ∧
  (∀ (s : State) (y : List Byte), y.length ≤ 8 → s.pkn = 0 → s.pk = 0 →
    ∃ t u, runInstrs (y.map .putb) s = .next t ∧ t.pkn.toNat = y.length ∧
      exec .pack t = .next u ∧ Answers t u ⟨0, BitVec.ofNat 4 y.length, padBlock y⟩ ∧ u.pk = 0 ∧ u.pkn = 0) ∧
  (∀ s t : State, exec .pack s = .next t → ∃ u, exec .pack t = .next u ∧ Answers t u ⟨0, 0, 0⟩) ∧
  (⟨0, 4, padBlock [0x6F, 0x72, 0x6C, 0x64]⟩ : Response).toWord = 0x0400000000646C726F

/-- 41_marshal.md R87: UNPK loads the unpacker, discarding what was unread. -/
def Obligations.UnpkLoadsTheUnpacker : Prop :=
  (∀ w : CmdWord, opOf w = 0x22 → decode w = .ok (.unpk (operandOf w))) ∧
  (∀ (s : State) (b : Block),
    exec (.unpk b) s = .next { s with uq := b, uqn := 8, pending := s.pending ++ [⟨0, 8, 0⟩] } ∧
    IdempotentAt (.unpk b) s) ∧
  (⟨0, 8, 0⟩ : Response).toWord = 0x080000000000000000

/-- 41_marshal.md R88: GETB pops lane 0 and shifts, or faults on an empty unpacker; after UNPK it returns the block's
bytes in order. -/
def Obligations.GetbPopsTheNextByte : Prop :=
  (∀ w : CmdWord, opOf w = 0x23 → decode w = .ok .getb) ∧
  (∀ s : State, s.uqn = 0 →
    ∃ t, exec .getb s = .next t ∧ Answers s t ⟨3, 0, 0⟩ ∧ SameExceptFlt s t ∧
      t.flt = if s.flt = 0 then 3 else s.flt) ∧
  (∀ s : State, s.uqn ≠ 0 →
    exec .getb s = .next { s with
      uq := s.uq >>> 8, uqn := s.uqn - 1,
      pending := s.pending ++ [⟨0, s.uqn - 1, (s.uq.extractLsb' 0 8).setWidth 64⟩] }) ∧
  (∀ (s : State) (b : Block) (j : Fin 8),
    ∃ t u, runInstrs (.unpk b :: List.replicate j.val .getb) s = .next t ∧ exec .getb t = .next u ∧
      Answers t u ⟨0, BitVec.ofNat 4 (7 - j.val), zextByte (blockToBytes b)[j]⟩) ∧
  (∀ (s : State) (b : Block),
    ∃ t u, runInstrs (.unpk b :: List.replicate 8 .getb) s = .next t ∧ t.uq = 0 ∧ t.uqn = 0 ∧
      exec .getb t = .next u ∧ Answers t u ⟨3, 0, 0⟩) ∧
  ∀ s : State, s.uq = 0x0123456789ABCDEF → s.uqn = 8 →
    ∃ t r, exec .getb s = .next t ∧ Answers s t r ∧ r.toWord = 0x0700000000000000EF ∧
      t.uq = 0x000123456789ABCD ∧ t.uqn = 7

/-- 41_marshal.md R89: pushing bytes and packing them, group by group, gives the blocks of the byte sequence. -/
def Obligations.PackStreamYieldsBlocksOfBytes : Prop :=
  (∀ (s : State) (y : List Byte), PackerOk s → s.pkn = 0 → 1 ≤ y.length → y.length ≤ 8 →
    ∃ t, runInstrs (packGroup y) s = .next t ∧
      t.pending = s.pending ++ (List.range y.length).map (fun j => ⟨0, BitVec.ofNat 4 (j + 1), 0⟩) ++
        [⟨0, BitVec.ofNat 4 y.length, padBlock y⟩] ∧
      t.pk = 0 ∧ t.pkn = 0) ∧
  ∀ (s : State) (bytes : List Byte), PackerOk s → s.pkn = 0 →
    ∃ t rs, runInstrs (packStream bytes) s = .next t ∧ t.pending = s.pending ++ rs ∧ (∀ r ∈ rs, r.code = 0) ∧
      (packResponses (packStream bytes) rs).map Response.data = bytesToBlocks bytes ∧
      (packResponses (packStream bytes) rs).map (fun r => r.cnt.toNat) =
        (List.range (blockCount bytes.length)).map (fun i => (byteGroup bytes i).length) ∧
      (bytes ≠ [] →
        ((packResponses (packStream bytes) rs).map fun r => r.cnt.toNat).getLast? = some (lastBlockLength bytes)) ∧
      t.pk = 0 ∧ t.pkn = 0

/-- 41_marshal.md R90: unpacking blocks gives their bytes in order, and packing those bytes again gives the block. -/
def Obligations.UnpackStreamYieldsBytesOfBlocks : Prop :=
  (∀ (s : State) (x : Block),
    ∃ t, runInstrs (unpackBlock x) s = .next t ∧
      t.pending = s.pending ++ ⟨0, 8, 0⟩ ::
        (List.range 8).map (fun j => ⟨0, BitVec.ofNat 4 (7 - j), zextByte (lane x j)⟩)) ∧
  (∀ (s : State) (blocks : List Block),
    ∃ t rs, runInstrs (unpackStream blocks) s = .next t ∧ t.pending = s.pending ++ rs ∧ (∀ r ∈ rs, r.code = 0) ∧
      (getbResponses (unpackStream blocks) rs).map Response.data = (blocksToBytes blocks).map zextByte) ∧
  ∀ (s : State) (x : Block), PackerOk s → s.pkn = 0 →
    ∃ t, runInstrs (packGroup (blockToBytes x).toList) s = .next t ∧ t.pending.getLast? = some ⟨0, 8, x⟩

/-! ### The CBC engine -/

/-- 42_cbc.md R94: decrypting an encrypted chain with the same key and starting value gives the plaintext back. -/
def Obligations.CbcRoundTrips : Prop :=
  ∀ (P : List Block) (K iv0 : Block), cbcDecrypt (cbcEncrypt P K iv0) K iv0 = P

/-- 42_cbc.md R95: a corrupted ciphertext block changes exactly two plaintext blocks, each by a stated difference, and
each ciphertext block depends on all plaintext blocks up to its own and on no later one. -/
def Obligations.ChainDependencyIsExact : Prop :=
  (∀ (C : List Block) (K iv0 e : Block) (i : Nat) (hi : i < C.length), e ≠ 0 →
    ∀ j : Nat, (cbcDecrypt (C.set i (C[i] ^^^ e)) K iv0)[j]? =
      ((cbcDecrypt C K iv0)[j]?).map fun p =>
        if j = i then p ^^^ rotr e 40 else if j = i + 1 then p ^^^ e else p) ∧
  (∀ (P : List Block) (K iv0 : Block) (n : Nat),
    (cbcEncrypt P K iv0).take n = cbcEncrypt (P.take n) K iv0) ∧
  ∀ (P : List Block) (K iv0 e : Block) (j i : Nat) (hj : j < P.length), j ≤ i → i < P.length → e ≠ 0 →
    (cbcEncrypt (P.set j (P[j] ^^^ e)) K iv0)[i]? ≠ (cbcEncrypt P K iv0)[i]?

/-- 42_cbc.md R96: START sets the chain registers and nothing else. -/
def Obligations.StartBeginsAChain : Prop :=
  (∀ w : CmdWord, opOf w = 0x30 → decode w = .ok .start) ∧
  (∀ s : State,
    exec .start s = .next { s with iv := Config.ivStart, idx := 0, pending := s.pending ++ [⟨0, 0, 0⟩] } ∧
    IdempotentAt .start s) ∧
  (∃ t, exec .start State.reset = .next t ∧ SameRegisters State.reset t) ∧
  Config.ivStart = 0x0000000000000000 ∧ (⟨0, 0, 0⟩ : Response).toWord = 0x000000000000000000

/-- 42_cbc.md R97: ENC encrypts the block XORed with IV, keeps the result in IV and counts the block. -/
def Obligations.EncAdvancesTheChain : Prop :=
  (∀ w : CmdWord, opOf w = 0x31 → decode w = .ok (.enc (operandOf w))) ∧
  (∀ (s : State) (p : Block),
    exec (.enc p) s = .next { s with
      iv := encryptBlock (s.iv ^^^ p) Config.key, idx := s.idx + 1,
      pending := s.pending ++ [⟨0, 0, encryptBlock (s.iv ^^^ p) Config.key⟩] } ∧
    ¬ IdempotentAt (.enc p) s) ∧
  (∀ (s : State) (p : Block), s.iv = 0 →
    ∃ t, exec (.enc p) s = .next t ∧ Answers s t ⟨0, 0, encryptBlock p Config.key⟩) ∧
  (∀ s : State, ∃ t, exec (.enc s.iv) s = .next t ∧ Answers s t ⟨0, 0, 0x442E74152AA82650⟩) ∧
  (∀ (s t u : State) (p c c' : Block), exec (.enc p) s = .next t → Answers s t ⟨0, 0, c⟩ →
    exec (.enc p) t = .next u → Answers t u ⟨0, 0, c'⟩ → (c' = c ↔ t.iv = s.iv)) ∧
  (∀ (s t : State) (p : Block), s.idx = 0xFFFFFFFF → exec (.enc p) s = .next t → t.idx = 0) ∧
  ∀ s : State, s.iv = 0 → s.idx = 0 →
    ∃ t r, exec (.enc 0x6369757120656854) s = .next t ∧ Answers s t r ∧ r.toWord = 0x002146207643DD5770 ∧
      t.iv = 0x2146207643DD5770 ∧ t.idx = 1

/-- 42_cbc.md R98: DEC decrypts the block, XORs with the old IV, keeps the ciphertext block in IV and counts it. -/
def Obligations.DecAdvancesTheChain : Prop :=
  (∀ w : CmdWord, opOf w = 0x32 → decode w = .ok (.dec (operandOf w))) ∧
  (∀ (s : State) (c : Block),
    exec (.dec c) s = .next { s with
      iv := c, idx := s.idx + 1,
      pending := s.pending ++ [⟨0, 0, decryptBlock c Config.key ^^^ s.iv⟩] } ∧
    ¬ IdempotentAt (.dec c) s) ∧
  (∀ (s : State) (c : Block), s.iv = 0 →
    ∃ t, exec (.dec c) s = .next t ∧ Answers s t ⟨0, 0, decryptBlock c Config.key⟩) ∧
  (∀ (s : State) (c : Block),
    ∃ t u, exec (.dec c) s = .next t ∧ exec (.dec c) t = .next u ∧
      Answers s t ⟨0, 0, decryptBlock c Config.key ^^^ s.iv⟩ ∧ Answers t u ⟨0, 0, decryptBlock c Config.key ^^^ c⟩) ∧
  ∀ s : State, s.iv = 0 → s.idx = 0 →
    ∃ t r, exec (.dec 0x2146207643DD5770) s = .next t ∧ Answers s t r ∧ r.toWord = 0x006369757120656854 ∧
      t.iv = 0x2146207643DD5770 ∧ t.idx = 1

/-- 42_cbc.md R99: from START or reset, whatever words of other families, system commands or faulting words are
interleaved, the ENC responses carry exactly `cbc_encrypt` of the ENC operands. -/
def Obligations.EncStreamComputesCbcEncrypt : Prop :=
  ∀ (s : State) (first : HostAction) (ws : List CmdWord),
    RegistersOk s → (first = .reset ∨ ∃ w, first = .command w ∧ decode w = .ok .start) →
    (∀ w ∈ ws, decode w ≠ .ok .start ∧ ∀ c, decode w ≠ .ok (.dec c)) →
    ∃ t u rs, performAction first s = .next t ∧ runWords ws t = .next u ∧ u.pending = t.pending ++ rs ∧
      rs.length = ws.length ∧
      encResults ws rs = cbcEncrypt (encOperands ws) Config.key Config.ivStart ∧
      u.idx = BitVec.ofNat 32 (encOperands ws).length ∧
      u.iv = ((cbcEncrypt (encOperands ws) Config.key Config.ivStart).getLast?).getD Config.ivStart

/-- 42_cbc.md R100: the same for DEC and `cbc_decrypt`; an encrypt chain fed to a decrypt chain returns the plaintext. -/
def Obligations.DecStreamComputesCbcDecrypt : Prop :=
  (∀ (s : State) (first : HostAction) (ws : List CmdWord),
    RegistersOk s → (first = .reset ∨ ∃ w, first = .command w ∧ decode w = .ok .start) →
    (∀ w ∈ ws, decode w ≠ .ok .start ∧ ∀ p, decode w ≠ .ok (.enc p)) →
    ∃ t u rs, performAction first s = .next t ∧ runWords ws t = .next u ∧ u.pending = t.pending ++ rs ∧
      rs.length = ws.length ∧
      decResults ws rs = cbcDecrypt (decOperands ws) Config.key Config.ivStart ∧
      u.idx = BitVec.ofNat 32 (decOperands ws).length ∧
      u.iv = ((decOperands ws).getLast?).getD Config.ivStart) ∧
  ∀ (s : State) (P : List Block),
    ∃ t u rs qs, runInstrs (encryptChain P) s = .next t ∧ t.pending = s.pending ++ ⟨0, 0, 0⟩ :: rs ∧
      runInstrs (decryptChain (rs.map Response.data)) t = .next u ∧ u.pending = t.pending ++ ⟨0, 0, 0⟩ :: qs ∧
      qs.map Response.data = P

/-- 42_cbc.md R104, R105 and 41_marshal.md R91: a chunk of bytes encrypted as one chain, decrypted as one chain and cut
to its recorded length is the chunk, by the functions and by the host's procedures through the commands; uncut it is
followed by the padding zeros. The decryption procedure gives `cbc_decrypt` of any ciphertext of whole blocks and
reports any other as malformed, with no DEC issued. -/
def Obligations.ChunkIsRecovered : Prop :=
  (∀ chunk : List Byte, recoverChunk chunk = chunk) ∧
  (∀ (s : State) (chunk : List Byte), PackerOk s → s.pkn = 0 →
    ∃ t u v, hostEncrypt chunk s = some (t, ciphertextBytes chunk, chunk.length) ∧
      hostDecrypt (ciphertextBytes chunk) chunk.length t = .chunk chunk u ∧
      hostDecrypt (ciphertextBytes chunk) (8 * blockCount chunk.length) t =
        .chunk (chunk ++ List.replicate (8 * blockCount chunk.length - chunk.length) 0) v) ∧
  ∀ (s : State) (cipher : List Byte) (length : Nat), PackerOk s → s.pkn = 0 →
    if cipher.length % 8 = 0 then
      ∃ t, hostDecrypt cipher length s =
        .chunk ((blocksToBytes (cbcDecrypt (bytesToBlocks cipher) Config.key Config.ivStart)).take length) t
    else
      ∃ t, hostDecrypt cipher length s = .malformed t ∧ t.iv = s.iv ∧ t.idx = s.idx

/-- 42_cbc.md R108: a host can keep a chain of its own with ENCB and DECB; the blocks are those of `cbc_encrypt` and
`cbc_decrypt`, and no register of CORE changes. -/
def Obligations.HostCanChainWithStatelessCommands : Prop :=
  ∀ (s : State) (P C : List Block) (iv : Block),
    (∃ t rs, runInstrs ((hostChainOperands P iv).map .encb) s = .next t ∧ SameRegisters s t ∧
      t.pending = s.pending ++ rs ∧ rs.map Response.data = cbcEncrypt P Config.key iv) ∧
    ∃ t rs, runInstrs (C.map .decb) s = .next t ∧ SameRegisters s t ∧ t.pending = s.pending ++ rs ∧
      List.zipWith (· ^^^ ·) (rs.map Response.data) (iv :: C) = cbcDecrypt C Config.key iv

/-! ### System commands and the status word -/

/-- 10_state.md R27, 43_system.md R109: STAT answers the status word, whose fields are the four registers, and changes
nothing. -/
def Obligations.StatShowsTheStatusWord : Prop :=
  (∀ w : CmdWord, opOf w = 0x40 → decode w = .ok .stat) ∧
  (∀ s : State, ∃ v : Block,
    exec .stat s = .next { s with pending := s.pending ++ [⟨0, 0, v⟩] } ∧ IdempotentAt .stat s ∧
    v.extractLsb' 0 32 = s.idx ∧ v.extractLsb' 32 4 = s.pkn ∧ v.extractLsb' 36 4 = s.uqn ∧
    v.extractLsb' 40 3 = s.flt ∧ v.extractLsb' 43 21 = 0 ∧ v = statusWord s.toRegisters) ∧
  statusWord State.reset.toRegisters = 0x0000000000000000 ∧
  ∀ s : State, s.idx = 1 → s.pkn = 1 → s.uqn = 6 → s.flt = 1 →
    (⟨0, 0, statusWord s.toRegisters⟩ : Response).toWord = 0x000000016100000001

/-- 43_system.md R110: CLRF clears FLT and restores nothing else; the next fault is recorded again. -/
def Obligations.ClrfClearsTheFaultRegister : Prop :=
  (∀ w : CmdWord, opOf w = 0x41 → decode w = .ok .clrf) ∧
  (∀ s : State,
    exec .clrf s = .next { s with flt := 0, pending := s.pending ++ [⟨0, 0, 0⟩] } ∧ IdempotentAt .clrf s) ∧
  (∀ (w : CmdWord) (s t u : State) (r : Response), exec .clrf s = .next t → acceptWord w t = .next u →
    Answers t u r → r.code ≠ 0 → u.flt = r.code) ∧
  (⟨0, 0, 0⟩ : Response).toWord = 0x000000000000000000

/-! ### Faults -/

/-- 60_exceptions.md R112, R113: exactly three faults, each under its own condition on the state before. -/
def Obligations.FaultsHaveTheirConditions : Prop :=
  ∀ (w : CmdWord) (s t : State) (r : Response), acceptWord w s = .next t → Answers s t r →
    (r.code = 0 ∨ r.code = 1 ∨ r.code = 2 ∨ r.code = 3) ∧
    (r.code = 1 ↔ opOf w ∉ definedOps) ∧
    (r.code = 2 ↔ opOf w = 0x20 ∧ s.pkn = 8) ∧
    (r.code = 3 ↔ opOf w = 0x23 ∧ s.uqn = 0)

/-- 60_exceptions.md R118, R119: a faulting command changes no register but FLT, which keeps the first code. -/
def Obligations.FaultEntryIsPrecise : Prop :=
  ∀ (w : CmdWord) (s t : State) (r : Response), acceptWord w s = .next t → Answers s t r → r.code ≠ 0 →
    SameExceptFlt s t ∧ t.flt = (if s.flt = 0 then r.code else s.flt) ∧ r.data = 0 ∧
    r.cnt = if r.code = 2 then 8 else 0

/-- 60_exceptions.md R120 and 10_state.md R23: FLT gates nothing. With any other value in it a command gives the same
other registers, and the same response unless it is STAT; and a fault leaves the chain, the marshaler and IDX. -/
def Obligations.FaultRegisterGatesNothing : Prop :=
  ∀ (w : CmdWord) (s t : State) (f : BitVec 3), acceptWord w s = .next t →
    (∃ u, acceptWord w { s with flt := f } = .next u ∧ SameExceptFlt t u ∧
      (decode w ≠ .ok .stat → u.pending = t.pending)) ∧
    ∀ r, Answers s t r → r.code ≠ 0 → SameExceptFlt s t

/-- 60_exceptions.md R121: over any run of words without CLRF, FLT keeps its code if it had one and otherwise takes the
first fault code answered. -/
def Obligations.FirstFaultIsKept : Prop :=
  ∀ (ws : List CmdWord) (s t : State), runWords ws s = .next t → (∀ w ∈ ws, decode w ≠ .ok .clrf) →
    ∃ rs, t.pending = s.pending ++ rs ∧
      t.flt = if s.flt = 0 then ((rs.map Response.code).find? (· != 0)).getD 0 else s.flt

/-- 30_encoding.md R56: CNT of each command's response. -/
def Obligations.CountFieldPerCommand : Prop :=
  (∀ (i : Instr) (s t : State) (r : Response), RegistersOk s → exec i s = .next t → Answers s t r →
    match i with
    | .putb _ => (r.code = 0 ∧ r.cnt = t.pkn ∧ 1 ≤ r.cnt.toNat ∧ r.cnt.toNat ≤ 8) ∨
        (r.code = 2 ∧ r.cnt = 8 ∧ s.pkn = 8 ∧ t.pkn = 8)
    | .pack => r.code = 0 ∧ r.cnt = s.pkn ∧ r.cnt.toNat ≤ 8
    | .unpk _ => r.code = 0 ∧ r.cnt = 8
    | .getb => (r.code = 0 ∧ r.cnt = t.uqn ∧ r.cnt.toNat ≤ 7) ∨ (r.code = 3 ∧ r.cnt = 0)
    | _ => r.code = 0 ∧ r.cnt = 0) ∧
  ∀ (w : CmdWord) (s t : State) (r : Response), opOf w ∉ definedOps → acceptWord w s = .next t → Answers s t r →
    r.code = 1 ∧ r.cnt = 0

/-- 70_reset_and_hazards.md R136 (e), (f) and 60_exceptions.md R112: a run from legal registers has no faulting response
exactly when the host keeps the duties CORE checks, and then the run is not marked faulted by it. The mark is the
model's own field (R122, log entry 5). -/
def Obligations.DutifulHostSeesNoFault : Prop :=
  ∀ (s : State) (ws : List CmdWord), RegistersOk s →
    ∃ t rs, runWords ws s = .next t ∧ t.pending = s.pending ++ rs ∧
      (dutiesKept ws s.pkn.toNat s.uqn.toNat = true ↔ ∀ r ∈ rs, r.code = 0) ∧
      (dutiesKept ws s.pkn.toNat s.uqn.toNat = true → t.faulted = s.faulted)

/-- MODEL (log entry 6; 93_implementation_defined.md V6): the only stop of the machine is PUTB with a count above 8; no
command is ever refused. -/
def Obligations.OnlyStopIsPutbBeyondTheLanes : Prop :=
  (∀ (s : State) (b : Byte), 8 < s.pkn.toNat → exec (.putb b) s = .fault .packLaneOutOfRange) ∧
  (∀ (i : Instr) (s : State) (f : Fault), exec i s = .fault f → (∃ b, i = .putb b) ∧ 8 < s.pkn.toNat) ∧
  ∀ (i : Instr) (s : State) (r : Refusal), exec i s ≠ .refused r

/-! ### The whole machine -/

/-- 70_reset_and_hazards.md R130: the reset state, register by register. -/
def Obligations.ResetStateIsAsStated : Prop :=
  State.reset.iv = 0x0000000000000000 ∧ State.reset.idx = 0 ∧ State.reset.pk = 0 ∧ State.reset.pkn = 0 ∧
  State.reset.uq = 0 ∧ State.reset.uqn = 0 ∧ State.reset.flt = 0 ∧ State.reset.iv = Config.ivStart ∧
  statusWord State.reset.toRegisters = 0x0000000000000000

/-- The invariants hold at reset (10_state.md R28; the model's own log entries 2 and 5 for the response record). -/
def Obligations.ResetMeetsTheInvariant : Prop := Inv State.reset

/-- 70_reset_and_hazards.md R129, R131: the host's reset, from any state, gives every register its reset value and
withdraws the responses not yet delivered. What is kept beside the registers is the model's choice (log entry 8). -/
def Obligations.AssertingResetRestoresEveryRegister : Prop :=
  ∀ (s : State) (rest : List HostAction), s.inputs = .reset :: rest →
    ∃ t, step s = .next t ∧ SameRegisters State.reset t ∧ t.pending = [] ∧ t.received = s.received ∧
      t.inputs = rest ∧ t.faulted = s.faulted

/-- 70_reset_and_hazards.md R132: START, PACK, UNPK 0, eight GETB and CLRF leave the reset state's registers from any
state. -/
def Obligations.CommandsCanRestoreTheResetState : Prop :=
  ∀ s : State, ∃ t,
    runInstrs ([.start, .pack, .unpk 0] ++ List.replicate 8 .getb ++ [.clrf]) s = .next t ∧
    SameRegisters State.reset t

/-- 10_state.md R28: the invariants of the registers hold after reset and every step keeps them; so PK and UQ stay
below the bound their counts give. -/
def Obligations.StepKeepsRegistersLegal : Prop :=
  RegistersOk State.reset ∧
  ∀ s t : State, RegistersOk s → step s = .next t →
    RegistersOk t ∧ t.pk.toNat < 2 ^ (8 * t.pkn.toNat) ∧ (t.pkn = 0 → t.pk = 0) ∧ (t.uqn = 0 → t.uq = 0)

/-- The whole invariant is kept by every step: legal registers, responses CORE can give, and faults remembered
(10_state.md R28, 30_encoding.md R54, R55, 60_exceptions.md R122). -/
def Obligations.StepKeepsTheInvariant : Prop :=
  ∀ s t : State, Inv s → step s = .next t → Inv t

/-- 30_encoding.md R51, R53: from legal registers every word is answered, and no step stops. -/
def Obligations.LegalMachineNeverStops : Prop :=
  (∀ (w : CmdWord) (s : State), RegistersOk s → ∃ t r, acceptWord w s = .next t ∧ Answers s t r ∧ ResponseOk r) ∧
  ∀ s : State, RegistersOk s → ∃ t, step s = .next t

/-- 30_encoding.md R53: along any actions without reset, the responses given are one for each command word and stand in
order, delivered ones first; taking them never reorders or loses one. -/
def Obligations.ResponsesMatchCommandsInOrder : Prop :=
  ∀ (as : List HostAction) (s t : State), runActions as s = .next t → HostAction.reset ∉ as →
    ∃ rs, t.received ++ t.pending = s.received ++ s.pending ++ rs ∧ s.received <+: t.received ∧
      rs.length = as.countP (fun a => match a with
        | .command _ => true
        | _ => false)

/-- 10_state.md R29, what is written: each command leaves every register the access table does not mark written, and
the ports' record but for its response. -/
def Obligations.CommandsWriteOnlyTheirRegisters : Prop :=
  ∀ (i : Instr) (s t : State), exec i s = .next t →
    (∃ r, Answers s t r) ∧
    ((∀ p, i ≠ .enc p) → (∀ c, i ≠ .dec c) → i ≠ .start → t.iv = s.iv ∧ t.idx = s.idx) ∧
    ((∀ b, i ≠ .putb b) → i ≠ .pack → t.pk = s.pk ∧ t.pkn = s.pkn) ∧
    ((∀ b, i ≠ .unpk b) → i ≠ .getb → t.uq = s.uq ∧ t.uqn = s.uqn) ∧
    ((∀ b, i ≠ .putb b) → i ≠ .getb → i ≠ .clrf → t.flt = s.flt) ∧
    ((∀ b, i ≠ .putb b) → i ≠ .getb → t.faulted = s.faulted)

/-- 10_state.md R29, what is read: a command's response and the registers it writes depend only on the registers the
access table marks read. -/
def Obligations.CommandsReadOnlyTheirRegisters : Prop :=
  ∀ (i : Instr) (s s' t : State), readsAgree i s s' → exec i s = .next t →
    ∃ t' r, exec i s' = .next t' ∧ Answers s t r ∧ Answers s' t' r ∧ writesAgree i t t'

/-- 20_memory.md R42: which commands are idempotent, and when. -/
def Obligations.IdempotencyTable : Prop :=
  ∀ s : State, RegistersOk s →
    (∀ b, IdempotentAt (.encb b) s) ∧ (∀ b, IdempotentAt (.decb b) s) ∧ IdempotentAt .stat s ∧
    IdempotentAt .clrf s ∧ IdempotentAt .start s ∧ (∀ b, IdempotentAt (.unpk b) s) ∧
    (IdempotentAt .pack s ↔ s.pkn = 0) ∧ (IdempotentAt .getb s ↔ s.uqn = 0) ∧
    (∀ b, IdempotentAt (.putb b) s ↔ s.pkn = 8) ∧
    (∀ p, ¬ IdempotentAt (.enc p) s) ∧ ∀ c, ¬ IdempotentAt (.dec c) s

/-- 00_scope.md R10 and 10_state.md R15, R16 (b), (c): executing a command is its function from the seven registers to
the seven registers and one response, and nothing else; so is accepting a word. What a host action does to the registers
depends on nothing the model keeps about the ports or about earlier faults. -/
def Obligations.RegistersIgnoreThePortRecord : Prop :=
  (∀ (i : Instr) (s : State), exec i s = s.performOr (commandAnswer i s.toRegisters)) ∧
  (∀ (w : CmdWord) (s : State), acceptWord w s = s.performOr (wordAnswer w s.toRegisters)) ∧
  ∀ (a : HostAction) (s s' t : State), SameRegisters s s' → performAction a s = .next t →
    ∃ t', performAction a s' = .next t' ∧ SameRegisters t t'

/-! ### Steps, ports and the assembler -/

/-- 00_scope.md R10 and 60_exceptions.md R128, with log entries 1, 3, 4: a step takes the host's next action. A command
word that decodes runs exactly that command; an illegal word raises ILLEGAL_OP; with no action the state is held. -/
def Obligations.StepRunsTheDecodedCommand : Prop :=
  (∀ (s : State) (w : CmdWord) (rest : List HostAction) (i : Instr),
    s.inputs = .command w :: rest → decode w = .ok i → i.wellFormed = true →
    step s = exec i { s with inputs := rest }) ∧
  (∀ (s : State) (w : CmdWord) (rest : List HostAction),
    s.inputs = .command w :: rest → opOf w ∉ definedOps →
    step s = .next (({ s with inputs := rest } : State).raise .illegalOp)) ∧
  (∀ s : State, s.inputs = [] → step s = .next s) ∧
  (∀ (s : State) (rest : List HostAction) (r : Response) (more : List Response),
    s.inputs = .take :: rest → s.pending = r :: more →
    step s = .next { s with inputs := rest, pending := more, received := s.received ++ [r] }) ∧
  (∀ (s : State) (rest : List HostAction), s.inputs = .take :: rest → s.pending = [] →
    step s = .next { s with inputs := rest }) ∧
  ∀ (s : State) (n w : Nat) (i : Instr), decodeTableWord n w = some i → step (s.withFetchWord n w) = exec i s

/-- 00_scope.md R10 and 70_reset_and_hazards.md R141: stepping through the presented actions is performing them one
after the other. A run over command words ends when every response has been delivered, each answered once; from there
the machine holds its state for ever. That a run whose last response reset withdrew counts as ended too is the model's
choice (log entry 18). -/
def Obligations.StepsPerformThePresentedActions : Prop :=
  (∀ (as : List HostAction) (s : State), s.inputs = as →
    core.run as.length s = runActions as { s with inputs := [] }) ∧
  (∀ (s : State) (n : Nat), RunEnded s → core.run n s = .next s) ∧
  ∀ (s : State) (ws : List CmdWord), RegistersOk s → s.pending = [] → s.inputs = wholeRun ws →
    ∃ t rs, core.run (wholeRun ws).length s = .next t ∧ RunEnded t ∧ t.received = s.received ++ rs ∧
      rs.length = ws.length ∧ ∃ u, runWords ws { s with inputs := [] } = .next u ∧ u.pending = rs ∧ SameRegisters t u

/-- 30_encoding.md R52, R53: along any waveform that keeps the handshake rules, whatever CORE's readiness, the
transactions run, and the words the host takes from `rsp` are exactly the responses delivered, in order. That a response
may be delivered at the edge that accepts its command is the model's choice (log entry 16). -/
def Obligations.WaveformDeliversTheResponses : Prop :=
  ∀ (es : List Edge) (s : State), legalWave es s = true →
    ∃ t, runActions (waveActions es) s = .next t ∧
      t.received.map Response.toWord = s.received.map Response.toWord ++ waveDelivered es

/-- 30_encoding.md R61: the two pseudo-instructions expand to single commands, each with a response of its own. -/
def Obligations.PseudoInstructionsExpand : Prop :=
  (∀ bytes : List Byte, 1 ≤ bytes.length → bytes.length ≤ 8 →
    expandLine (.putbs bytes) = some (bytes.map fun b => .command (encode (.putb b)))) ∧
  (∀ n : Nat, 1 ≤ n → n ≤ 8 → expandLine (.getbs n) = some (List.replicate n (.command (encode .getb)))) ∧
  (∀ l : AsmLine, expandLine l = none → (∃ bytes, l = .putbs bytes) ∨ ∃ n, l = .getbs n) ∧
  ∀ (l : AsmLine) (as : List HostAction) (s : State), RegistersOk s → expandLine l = some as →
    HostAction.reset ∉ as → ∃ t rs, runActions as s = .next t ∧ t.pending = s.pending ++ rs ∧ rs.length = as.length
end

