-- ==== Sys2Proof/Laws/Blocks.lean ====
section
/-! SUPPORT. The pure functions bit by bit and lane by lane: what one round, one lane write and one lane read do. -/

namespace Sys2Proof.Machine

/-- The unpacking of a round function into its applications (R70, R71). -/
@[simp] theorem applyRounds_zero (f : Block → Block → Block) (K b : Block) : applyRounds f K 0 b = b := rfl
@[simp] theorem applyRounds_succ (f : Block → Block → Block) (K b : Block) (n : Nat) :
    applyRounds f K (n + 1) b = applyRounds f K n (f b K) := rfl

/-- Rotation as the library's, from which every law of it follows. -/
theorem rotl_eq_rotateLeft (x : Block) (c : Fin 64) : rotl x c = x.rotateLeft c.val := by
  have hc := c.isLt
  unfold rotl
  split
  · next h => subst h; simp [BitVec.rotateLeft_def, BitVec.ushiftRight_eq_zero]
  · rw [BitVec.rotateLeft_def, Nat.mod_eq_of_lt hc]

theorem rotr_eq_rotateRight (x : Block) (c : Fin 64) : rotr x c = x.rotateRight c.val := by
  have hc := c.isLt
  unfold rotr
  split
  · next h => subst h; simp [BitVec.rotateRight_def]
  · rw [BitVec.rotateRight_def, Nat.mod_eq_of_lt hc]

/-- One bit of a lane. -/
theorem getLsbD_lane (v : Block) (k j : Nat) : (lane v k).getLsbD j = (decide (j < 8) && v.getLsbD (8 * k + j)) := by
  simp [lane, BitVec.getLsbD_extractLsb']

/-- A lane written reads as written, and every other lane is kept. -/
theorem lane_setLane (v : Block) (b : Byte) (k j : Nat) (hk : k < 8) (hj : j < 8) :
    lane (setLane v k b) j = if j = k then b else lane v j := by
  apply BitVec.eq_of_getLsbD_eq
  intro i hi
  have h255 : ∀ m : Nat, (255#64).getLsbD m = decide (m < 8) := by
    intro m
    by_cases hm : m < 64
    · exact (by decide : ∀ m : Fin 64, (255#64).getLsbD m.val = decide (m.val < 8)) ⟨m, hm⟩
    · rw [BitVec.getLsbD_of_ge _ _ (by omega)]
      exact (decide_eq_false (by omega)).symm
  simp only [getLsbD_lane, setLane, zextByte, BitVec.getLsbD_or, BitVec.getLsbD_and, BitVec.getLsbD_not,
    BitVec.getLsbD_shiftLeft, BitVec.getLsbD_setWidth, h255]
  have h1 : 8 * j + i < 64 := by omega
  by_cases e : j = k
  · subst e
    have h2 : 8 * j + i - 8 * j = i := by omega
    have h3 : i < 64 := by omega
    simp [h2, h3, hi]
    omega
  · simp only [e, if_false]
    rw [getLsbD_lane]
    by_cases hlt : 8 * j + i < 8 * k
    · simp [hlt, hi, h1]
    · have h4 : ¬ (8 * j + i - 8 * k < 8) := by omega
      have h5 : b.getLsbD (8 * j + i - 8 * k) = false := by
        apply BitVec.getLsbD_of_ge; omega
      simp [hi, h1, h4, h5]

/-- A block is its eight lanes. -/
theorem eq_of_lanes {v w : Block} (h : ∀ k < 8, lane v k = lane w k) : v = w := by
  apply BitVec.eq_of_getLsbD_eq
  intro i hi
  have hk := h (i / 8) (by omega)
  have hb := congrArg (fun z : Byte => z.getLsbD (i % 8)) hk
  simp only [getLsbD_lane] at hb
  have e : 8 * (i / 8) + i % 8 = i := by omega
  have m : i % 8 < 8 := by omega
  simpa [e, m] using hb

end Sys2Proof.Machine
end

