-- ==== Sys2Proof/Laws/Decode.lean ====
section
/-! SUPPORT. The decoder by opcode: what each of the eleven opcodes decodes to, and the fields of a packed word. -/

namespace Sys2Proof

@[simp] theorem opOf_packWord (op : Byte) (x : Block) : opOf (packWord op x) = op := by
  simp only [opOf, packWord]
  exact BitVec.extractLsb'_append_eq_left

@[simp] theorem operandOf_packWord (op : Byte) (x : Block) : operandOf (packWord op x) = x := by
  simp only [operandOf, packWord]
  exact BitVec.extractLsb'_append_eq_right

@[simp] theorem byteOf_setWidth (b : Byte) : byteOf (b.setWidth 64) = b := by
  ext i h
  simp [byteOf, BitVec.getElem_extractLsb', BitVec.getLsbD_eq_getElem h]
  exact fun _ => by omega

/-- A word is its two fields. -/
theorem packWord_fields (w : CmdWord) : packWord (opOf w) (operandOf w) = w := by
  apply BitVec.eq_of_getLsbD_eq
  intro i hi
  simp only [packWord, opOf, operandOf]
  rw [BitVec.getLsbD_append]
  by_cases h : i < 64
  · simp [h]
  · simp only [h, BitVec.getLsbD_extractLsb']
    have : i - 64 < 8 := by omega
    simp [this]
    congr 1; omega

/-- Decoding where the opcode selects a row. -/
theorem decode_of_row {w : CmdWord} {r : OpRow} (h : rowOf (opOf w) = some r) :
    decode w = .ok (r.build (operandOf w)) := by
  simp [decode, h]

/-- Decoding where it selects none. -/
theorem decode_of_no_row {w : CmdWord} (h : rowOf (opOf w) = none) :
    decode w = .error (.illegalOp (opOf w)) := by
  simp [decode, h]

/-- An opcode selects no row exactly when no row of the map has it. -/
theorem rowOf_eq_none_iff (op : Byte) : rowOf op = none ↔ op ∉ opcodeMap.map OpRow.op := by
  simp only [rowOf, List.find?_eq_none, List.mem_map, not_exists, not_and]
  constructor
  · intro h r hr e
    exact h r hr (by simp [e])
  · intro h r hr e
    exact h r hr (by simpa using e)

/-- The row an opcode selects is a row of the map with that opcode. -/
theorem rowOf_eq_some {op : Byte} {r : OpRow} (h : rowOf op = some r) : r ∈ opcodeMap ∧ r.op = op :=
  ⟨List.mem_of_find?_eq_some h, by simpa using List.find?_some h⟩

theorem decode_encb {w : CmdWord} (h : opOf w = 0x10) : decode w = .ok (.encb (operandOf w)) :=
  decode_of_row (r := ⟨"ENCB", 0x10, .q, .encb⟩) (by rw [h]; rfl)
theorem decode_decb {w : CmdWord} (h : opOf w = 0x11) : decode w = .ok (.decb (operandOf w)) :=
  decode_of_row (r := ⟨"DECB", 0x11, .q, .decb⟩) (by rw [h]; rfl)
theorem decode_putb {w : CmdWord} (h : opOf w = 0x20) : decode w = .ok (.putb (byteOf (operandOf w))) :=
  decode_of_row (r := ⟨"PUTB", 0x20, .b, fun x => .putb (byteOf x)⟩) (by rw [h]; rfl)
theorem decode_pack {w : CmdWord} (h : opOf w = 0x21) : decode w = .ok .pack :=
  decode_of_row (r := ⟨"PACK", 0x21, .n, fun _ => .pack⟩) (by rw [h]; rfl)
theorem decode_unpk {w : CmdWord} (h : opOf w = 0x22) : decode w = .ok (.unpk (operandOf w)) :=
  decode_of_row (r := ⟨"UNPK", 0x22, .q, .unpk⟩) (by rw [h]; rfl)
theorem decode_getb {w : CmdWord} (h : opOf w = 0x23) : decode w = .ok .getb :=
  decode_of_row (r := ⟨"GETB", 0x23, .n, fun _ => .getb⟩) (by rw [h]; rfl)
theorem decode_start {w : CmdWord} (h : opOf w = 0x30) : decode w = .ok .start :=
  decode_of_row (r := ⟨"START", 0x30, .n, fun _ => .start⟩) (by rw [h]; rfl)
theorem decode_enc {w : CmdWord} (h : opOf w = 0x31) : decode w = .ok (.enc (operandOf w)) :=
  decode_of_row (r := ⟨"ENC", 0x31, .q, .enc⟩) (by rw [h]; rfl)
theorem decode_dec {w : CmdWord} (h : opOf w = 0x32) : decode w = .ok (.dec (operandOf w)) :=
  decode_of_row (r := ⟨"DEC", 0x32, .q, .dec⟩) (by rw [h]; rfl)
theorem decode_stat {w : CmdWord} (h : opOf w = 0x40) : decode w = .ok .stat :=
  decode_of_row (r := ⟨"STAT", 0x40, .n, fun _ => .stat⟩) (by rw [h]; rfl)
theorem decode_clrf {w : CmdWord} (h : opOf w = 0x41) : decode w = .ok .clrf :=
  decode_of_row (r := ⟨"CLRF", 0x41, .n, fun _ => .clrf⟩) (by rw [h]; rfl)

end Sys2Proof
end

