-- ==== Sys2Proof/Laws/State.lean ====
section
/-! SUPPORT. What every update does to every field: one equation each, so that no proof unfolds a record update. A
register of a State is that register of its `toRegisters`, so the equations on `toRegisters` serve all seven. -/

namespace Sys2Proof.Machine

section registers
variable (r : Registers)

@[simp] theorem Registers.setChain_iv (v : Block) (i : BitVec 32) : (r.setChain v i).iv = v := rfl
@[simp] theorem Registers.setChain_idx (v : Block) (i : BitVec 32) : (r.setChain v i).idx = i := rfl
@[simp] theorem Registers.setChain_pk (v : Block) (i : BitVec 32) : (r.setChain v i).pk = r.pk := rfl
@[simp] theorem Registers.setChain_pkn (v : Block) (i : BitVec 32) : (r.setChain v i).pkn = r.pkn := rfl
@[simp] theorem Registers.setChain_uq (v : Block) (i : BitVec 32) : (r.setChain v i).uq = r.uq := rfl
@[simp] theorem Registers.setChain_uqn (v : Block) (i : BitVec 32) : (r.setChain v i).uqn = r.uqn := rfl
@[simp] theorem Registers.setChain_flt (v : Block) (i : BitVec 32) : (r.setChain v i).flt = r.flt := rfl

@[simp] theorem Registers.setPacker_iv (v : Block) (n : BitVec 4) : (r.setPacker v n).iv = r.iv := rfl
@[simp] theorem Registers.setPacker_idx (v : Block) (n : BitVec 4) : (r.setPacker v n).idx = r.idx := rfl
@[simp] theorem Registers.setPacker_pk (v : Block) (n : BitVec 4) : (r.setPacker v n).pk = v := rfl
@[simp] theorem Registers.setPacker_pkn (v : Block) (n : BitVec 4) : (r.setPacker v n).pkn = n := rfl
@[simp] theorem Registers.setPacker_uq (v : Block) (n : BitVec 4) : (r.setPacker v n).uq = r.uq := rfl
@[simp] theorem Registers.setPacker_uqn (v : Block) (n : BitVec 4) : (r.setPacker v n).uqn = r.uqn := rfl
@[simp] theorem Registers.setPacker_flt (v : Block) (n : BitVec 4) : (r.setPacker v n).flt = r.flt := rfl

@[simp] theorem Registers.setUnpacker_iv (v : Block) (n : BitVec 4) : (r.setUnpacker v n).iv = r.iv := rfl
@[simp] theorem Registers.setUnpacker_idx (v : Block) (n : BitVec 4) : (r.setUnpacker v n).idx = r.idx := rfl
@[simp] theorem Registers.setUnpacker_pk (v : Block) (n : BitVec 4) : (r.setUnpacker v n).pk = r.pk := rfl
@[simp] theorem Registers.setUnpacker_pkn (v : Block) (n : BitVec 4) : (r.setUnpacker v n).pkn = r.pkn := rfl
@[simp] theorem Registers.setUnpacker_uq (v : Block) (n : BitVec 4) : (r.setUnpacker v n).uq = v := rfl
@[simp] theorem Registers.setUnpacker_uqn (v : Block) (n : BitVec 4) : (r.setUnpacker v n).uqn = n := rfl
@[simp] theorem Registers.setUnpacker_flt (v : Block) (n : BitVec 4) : (r.setUnpacker v n).flt = r.flt := rfl

@[simp] theorem Registers.setFlt_iv (f : BitVec 3) : (r.setFlt f).iv = r.iv := rfl
@[simp] theorem Registers.setFlt_idx (f : BitVec 3) : (r.setFlt f).idx = r.idx := rfl
@[simp] theorem Registers.setFlt_pk (f : BitVec 3) : (r.setFlt f).pk = r.pk := rfl
@[simp] theorem Registers.setFlt_pkn (f : BitVec 3) : (r.setFlt f).pkn = r.pkn := rfl
@[simp] theorem Registers.setFlt_uq (f : BitVec 3) : (r.setFlt f).uq = r.uq := rfl
@[simp] theorem Registers.setFlt_uqn (f : BitVec 3) : (r.setFlt f).uqn = r.uqn := rfl
@[simp] theorem Registers.setFlt_flt (f : BitVec 3) : (r.setFlt f).flt = f := rfl

@[simp] theorem Registers.clearFault_iv : (r.clearFault).iv = r.iv := rfl
@[simp] theorem Registers.clearFault_idx : (r.clearFault).idx = r.idx := rfl
@[simp] theorem Registers.clearFault_pk : (r.clearFault).pk = r.pk := rfl
@[simp] theorem Registers.clearFault_pkn : (r.clearFault).pkn = r.pkn := rfl
@[simp] theorem Registers.clearFault_uq : (r.clearFault).uq = r.uq := rfl
@[simp] theorem Registers.clearFault_uqn : (r.clearFault).uqn = r.uqn := rfl
@[simp] theorem Registers.clearFault_flt : (r.clearFault).flt = 0 := rfl

@[simp] theorem Registers.respond_regs (c : BitVec 3) (n : BitVec 4) (d : Block) : (r.respond c n d).regs = r := rfl
@[simp] theorem Registers.respond_rsp (c : BitVec 3) (n : BitVec 4) (d : Block) : (r.respond c n d).rsp = ⟨c, n, d⟩ := rfl

@[simp] theorem Registers.raise_regs (c : FaultCode) : (r.raise c).regs = r.setFlt (recordFault r.flt c) := rfl
@[simp] theorem Registers.raise_rsp (c : FaultCode) : (r.raise c).rsp = ⟨c.bits, c.cnt, 0⟩ := rfl

end registers

section machine
variable (s : State)

@[simp] theorem State.perform_toRegisters (a : Answer) : (s.perform a).toRegisters = a.regs := rfl
@[simp] theorem State.perform_inputs (a : Answer) : (s.perform a).inputs = s.inputs := rfl
@[simp] theorem State.perform_pending (a : Answer) : (s.perform a).pending = s.pending ++ [a.rsp] := rfl
@[simp] theorem State.perform_received (a : Answer) : (s.perform a).received = s.received := rfl
@[simp] theorem State.perform_faulted (a : Answer) : (s.perform a).faulted = ((a.rsp.code != 0) || s.faulted) := rfl

@[simp] theorem State.raise_toRegisters (c : FaultCode) : (s.raise c).toRegisters = s.toRegisters.setFlt (recordFault s.flt c) := rfl
@[simp] theorem State.raise_inputs (c : FaultCode) : (s.raise c).inputs = s.inputs := rfl
@[simp] theorem State.raise_pending (c : FaultCode) : (s.raise c).pending = s.pending ++ [⟨c.bits, c.cnt, 0⟩] := rfl
@[simp] theorem State.raise_received (c : FaultCode) : (s.raise c).received = s.received := rfl
@[simp] theorem State.raise_faulted (c : FaultCode) : (s.raise c).faulted = true := by cases c <;> rfl

@[simp] theorem State.withInputs_toRegisters (a : List HostAction) : (s.withInputs a).toRegisters = s.toRegisters := rfl
@[simp] theorem State.withInputs_inputs (a : List HostAction) : (s.withInputs a).inputs = a := rfl
@[simp] theorem State.withInputs_pending (a : List HostAction) : (s.withInputs a).pending = s.pending := rfl
@[simp] theorem State.withInputs_received (a : List HostAction) : (s.withInputs a).received = s.received := rfl
@[simp] theorem State.withInputs_faulted (a : List HostAction) : (s.withInputs a).faulted = s.faulted := rfl

@[simp] theorem State.assertReset_toRegisters : s.assertReset.toRegisters = Registers.reset := rfl
@[simp] theorem State.assertReset_inputs : s.assertReset.inputs = s.inputs := rfl
@[simp] theorem State.assertReset_pending : s.assertReset.pending = [] := rfl
@[simp] theorem State.assertReset_received : s.assertReset.received = s.received := rfl
@[simp] theorem State.assertReset_faulted : s.assertReset.faulted = s.faulted := rfl

@[simp] theorem State.hold_eq : s.hold = s := rfl

@[simp] theorem State.deliver_toRegisters : s.deliver.toRegisters = s.toRegisters := by
  unfold State.deliver; split <;> rfl
@[simp] theorem State.deliver_inputs : s.deliver.inputs = s.inputs := by
  unfold State.deliver; split <;> rfl
@[simp] theorem State.deliver_faulted : s.deliver.faulted = s.faulted := by
  unfold State.deliver; split <;> rfl

/-- Taking a response moves it: what was given, delivered or not, stays the same sequence. -/
@[simp] theorem State.deliver_log : s.deliver.received ++ s.deliver.pending = s.received ++ s.pending := by
  unfold State.deliver; split <;> simp_all

/-- A command's answer on the machine, by its two cases. -/
@[simp] theorem State.performOr_ok (a : Answer) : s.performOr (.ok a) = .next (s.perform a) := rfl
@[simp] theorem State.performOr_error (f : Fault) : s.performOr (.error f) = .fault f := rfl

end machine

end Sys2Proof.Machine
end

