-- ==== Sys2Proof/Laws/Exec.lean ====
section
/-! SUPPORT. What the shared operations and each command can do, said once: provers cite these instead of unfolding
exec and step. -/

namespace Sys2Proof.Machine

section registers
variable (r : Registers)

/-- PUTB on the registers in each of its three cases. -/
theorem putbAnswer_full (b : Byte) (h : r.pkn = 8) : putbAnswer b r = .ok (r.raise .packOverflow) := if_pos h

theorem putbAnswer_push (b : Byte) (h : r.pkn < 8) :
    putbAnswer b r = .ok ((r.setPacker (setLane r.pk r.pkn.toNat b) (r.pkn + 1)).respond 0 (r.pkn + 1) 0) := by
  have h8 : r.pkn ≠ 8 := by
    intro e; rw [e] at h; revert h; decide
  rw [putbAnswer, if_neg h8, if_pos h]

theorem putbAnswer_beyond (b : Byte) (h : 8 < r.pkn) : putbAnswer b r = .error .packLaneOutOfRange := by
  have h8 : r.pkn ≠ 8 := by
    intro e; rw [e] at h; revert h; decide
  have hn : ¬ r.pkn < 8 := fun l => by
    simp only [BitVec.lt_def] at h l; omega
  rw [putbAnswer, if_neg h8, if_neg hn]

/-- Which of the three cases of PUTB holds. -/
theorem pkn_cases (n : BitVec 4) : n = 8 ∨ n < 8 ∨ 8 < n := by
  by_cases h : n.toNat = 8
  · exact .inl (BitVec.eq_of_toNat_eq h)
  · have e8 : (8 : BitVec 4).toNat = 8 := rfl
    simp only [BitVec.lt_def]
    omega

/-- GETB on the registers in each of its two cases. -/
theorem getbAnswer_empty (h : r.uqn = 0) : getbAnswer r = r.raise .unpackEmpty := if_pos h

theorem getbAnswer_pop (h : r.uqn ≠ 0) :
    getbAnswer r =
      (r.setUnpacker (r.uq >>> 8) (r.uqn - 1)).respond 0 (r.uqn - 1) (zextByte (lane r.uq 0)) := if_neg h

/-- Everything a command can make of the registers: one case per command and per branch of it. -/
theorem commandAnswer_cases {i : Instr} {a : Answer} (h : commandAnswer i r = .ok a) :
    (∃ b, i = .encb b ∧ a = r.respond 0 0 (encryptBlock b Config.key)) ∨
    (∃ b, i = .decb b ∧ a = r.respond 0 0 (decryptBlock b Config.key)) ∨
    (∃ b, i = .putb b ∧ r.pkn = 8 ∧ a = r.raise .packOverflow) ∨
    (∃ b, i = .putb b ∧ r.pkn < 8 ∧
      a = (r.setPacker (setLane r.pk r.pkn.toNat b) (r.pkn + 1)).respond 0 (r.pkn + 1) 0) ∨
    (i = .pack ∧ a = (r.setPacker 0 0).respond 0 r.pkn r.pk) ∨
    (∃ b, i = .unpk b ∧ a = (r.setUnpacker b 8).respond 0 8 0) ∨
    (i = .getb ∧ r.uqn = 0 ∧ a = r.raise .unpackEmpty) ∨
    (i = .getb ∧ r.uqn ≠ 0 ∧
      a = (r.setUnpacker (r.uq >>> 8) (r.uqn - 1)).respond 0 (r.uqn - 1) (zextByte (lane r.uq 0))) ∨
    (i = .start ∧ a = (r.setChain Config.ivStart 0).respond 0 0 0) ∨
    (∃ p, i = .enc p ∧
      a = (r.setChain (encryptBlock (r.iv ^^^ p) Config.key) (r.idx + 1)).respond 0 0
        (encryptBlock (r.iv ^^^ p) Config.key)) ∨
    (∃ c, i = .dec c ∧ a = (r.setChain c (r.idx + 1)).respond 0 0 (decryptBlock c Config.key ^^^ r.iv)) ∨
    (i = .stat ∧ a = r.respond 0 0 (statusWord r)) ∨
    (i = .clrf ∧ a = r.clearFault.respond 0 0 0) := by
  cases i with
  | encb b => cases h; exact .inl ⟨b, rfl, rfl⟩
  | decb b => cases h; exact .inr (.inl ⟨b, rfl, rfl⟩)
  | putb b =>
    change putbAnswer b r = .ok a at h
    rcases pkn_cases r.pkn with h8 | hl | hb
    · rw [putbAnswer_full r b h8] at h; cases h
      exact .inr (.inr (.inl ⟨b, rfl, h8, rfl⟩))
    · rw [putbAnswer_push r b hl] at h; cases h
      exact .inr (.inr (.inr (.inl ⟨b, rfl, hl, rfl⟩)))
    · rw [putbAnswer_beyond r b hb] at h; cases h
  | pack => cases h; exact .inr (.inr (.inr (.inr (.inl ⟨rfl, rfl⟩))))
  | unpk b => cases h; exact .inr (.inr (.inr (.inr (.inr (.inl ⟨b, rfl, rfl⟩)))))
  | getb =>
    cases h
    by_cases h0 : r.uqn = 0
    · exact .inr (.inr (.inr (.inr (.inr (.inr (.inl ⟨rfl, h0, getbAnswer_empty r h0⟩))))))
    · exact .inr (.inr (.inr (.inr (.inr (.inr (.inr (.inl ⟨rfl, h0, getbAnswer_pop r h0⟩)))))))
  | start => cases h; simp [startAnswer]
  | enc p => cases h; simp [encAnswer]
  | dec c => cases h; simp [decAnswer]
  | stat => cases h; simp [statAnswer]
  | clrf => cases h; simp [clrfAnswer]

/-- A command has an answer unless it is PUTB with a count above 8. -/
theorem commandAnswer_completes (i : Instr) (h : r.pkn.toNat ≤ 8) : ∃ a, commandAnswer i r = .ok a := by
  cases i with
  | putb b =>
    rcases pkn_cases r.pkn with h8 | hl | hb
    · exact ⟨_, putbAnswer_full r b h8⟩
    · exact ⟨_, putbAnswer_push r b hl⟩
    · have e8 : (8 : BitVec 4).toNat = 8 := rfl
      simp only [BitVec.lt_def] at hb; omega
  | _ => exact ⟨_, rfl⟩

end registers

section machine
variable (s t : State)

/-- The commands with one case each. -/
theorem exec_encb (b : Block) : exec (.encb b) s = .next (s.perform (encbAnswer b s.toRegisters)) := rfl
theorem exec_decb (b : Block) : exec (.decb b) s = .next (s.perform (decbAnswer b s.toRegisters)) := rfl
theorem exec_pack : exec .pack s = .next (s.perform (packAnswer s.toRegisters)) := rfl
theorem exec_unpk (b : Block) : exec (.unpk b) s = .next (s.perform (unpkAnswer b s.toRegisters)) := rfl
theorem exec_start : exec .start s = .next (s.perform (startAnswer s.toRegisters)) := rfl
theorem exec_enc (p : Block) : exec (.enc p) s = .next (s.perform (encAnswer p s.toRegisters)) := rfl
theorem exec_dec (c : Block) : exec (.dec c) s = .next (s.perform (decAnswer c s.toRegisters)) := rfl
theorem exec_stat : exec .stat s = .next (s.perform (statAnswer s.toRegisters)) := rfl
theorem exec_clrf : exec .clrf s = .next (s.perform (clrfAnswer s.toRegisters)) := rfl

/-- PUTB in each of its three cases. -/
theorem execPutb_full (b : Byte) (h : s.pkn = 8) : exec (.putb b) s = .next (s.raise .packOverflow) :=
  congrArg s.performOr (putbAnswer_full s.toRegisters b h)

theorem execPutb_push (b : Byte) (h : s.pkn < 8) :
    exec (.putb b) s = .next (s.perform
      ((s.toRegisters.setPacker (setLane s.pk s.pkn.toNat b) (s.pkn + 1)).respond 0 (s.pkn + 1) 0)) :=
  congrArg s.performOr (putbAnswer_push s.toRegisters b h)

theorem execPutb_beyond (b : Byte) (h : 8 < s.pkn) : exec (.putb b) s = .fault .packLaneOutOfRange :=
  congrArg s.performOr (putbAnswer_beyond s.toRegisters b h)

/-- GETB in each of its two cases. -/
theorem execGetb_empty (h : s.uqn = 0) : exec .getb s = .next (s.raise .unpackEmpty) :=
  congrArg (fun a => Host.Outcome.next (s.perform a)) (getbAnswer_empty s.toRegisters h)

theorem execGetb_pop (h : s.uqn ≠ 0) :
    exec .getb s = .next (s.perform
      ((s.toRegisters.setUnpacker (s.uq >>> 8) (s.uqn - 1)).respond 0 (s.uqn - 1) (zextByte (lane s.uq 0)))) :=
  congrArg (fun a => Host.Outcome.next (s.perform a)) (getbAnswer_pop s.toRegisters h)

/-- A command that answers a next state performed an answer of its registers; `commandAnswer_cases` says which. -/
theorem exec_next {i : Instr} (h : exec i s = .next t) :
    ∃ a, commandAnswer i s.toRegisters = .ok a ∧ t = s.perform a := by
  cases i with
  | putb b =>
    change s.performOr (putbAnswer b s.toRegisters) = .next t at h
    cases hp : putbAnswer b s.toRegisters with
    | ok a => rw [hp] at h; cases h; exact ⟨a, hp, rfl⟩
    | error f => rw [hp] at h; cases h
  | _ => cases h; exact ⟨_, rfl, rfl⟩

/-- A command whose registers have an answer answers the next state that performs it. -/
theorem exec_of_answer {i : Instr} {a : Answer} (h : commandAnswer i s.toRegisters = .ok a) :
    exec i s = .next (s.perform a) := by
  cases i with
  | putb b => exact congrArg s.performOr h
  | _ => cases h; rfl

/-- A command answers a next state unless it is PUTB with a count above 8. -/
theorem exec_completes (i : Instr) (h : s.pkn.toNat ≤ 8) : ∃ t, exec i s = .next t :=
  (commandAnswer_completes s.toRegisters i h).imp' s.perform fun _ ha => exec_of_answer s ha

/-- An illegal word takes the fault ILLEGAL_OP. -/
theorem acceptWord_illegal {w : CmdWord} (h : rowOf (opOf w) = none) :
    acceptWord w s = .next (s.raise .illegalOp) := by
  simp [acceptWord, decode_of_no_row h]

/-- A word that decodes runs its command. -/
theorem acceptWord_decoded {w : CmdWord} {i : Instr} (h : decode w = .ok i) : acceptWord w s = exec i s := by
  simp [acceptWord, h]

/-- What a word can do: the fault ILLEGAL_OP, or the command it decodes to. -/
theorem acceptWord_cases (w : CmdWord) :
    (∃ e, decode w = .error e ∧ acceptWord w s = .next (s.raise .illegalOp)) ∨
    (∃ i, decode w = .ok i ∧ acceptWord w s = exec i s) := by
  cases h : decode w with
  | error e => exact .inl ⟨e, rfl, by simp [acceptWord, h]⟩
  | ok i => exact .inr ⟨i, rfl, by simp [acceptWord, h]⟩

/-- Taking a response: with none pending nothing happens, else the oldest moves. -/
theorem deliver_cases :
    (s.pending = [] ∧ s.deliver = s) ∨
    (∃ r rest, s.pending = r :: rest ∧
      s.deliver = { s with pending := rest, received := s.received ++ [r] }) := by
  cases h : s.pending with
  | nil => exact .inl ⟨rfl, by simp [State.deliver, h]⟩
  | cons r rest => exact .inr ⟨r, rest, rfl, by simp [State.deliver, h]⟩

/-- Everything a host action can do. -/
theorem performAction_cases (a : HostAction) :
    (a = .reset ∧ performAction a s = .next s.assertReset) ∨
    (a = .take ∧ performAction a s = .next s.deliver) ∨
    (∃ w, a = .command w ∧ performAction a s = acceptWord w s) := by
  cases a with
  | reset => exact .inl ⟨rfl, rfl⟩
  | command w => exact .inr (.inr ⟨w, rfl, rfl⟩)
  | take => exact .inr (.inl ⟨rfl, rfl⟩)

/-- What a step can do: hold, or perform the next action with the rest of the actions left. -/
theorem step_cases :
    (s.inputs = [] ∧ step s = .next s) ∨
    (∃ a rest, s.inputs = a :: rest ∧ step s = performAction a (s.withInputs rest)) := by
  cases h : s.inputs with
  | nil => exact .inl ⟨rfl, by simp [step, stepInputs, h, State.hold]⟩
  | cons a rest => exact .inr ⟨a, rest, rfl, by simp [step, stepInputs, h]⟩

end machine

end Sys2Proof.Machine
end

