-- ==== Sys2Proof/Laws/PerInstr.lean ====
section
/-! SUPPORT. A statement about every command as syntax, one lemma per constructor: its row of the opcode map. -/

namespace Sys2Proof.Laws.OpcodeRow

/-- The command's opcode selects a row of the map, and that row reads the command back from its canonical operand. -/
def Statement (i : Instr) : Prop := ∃ r, rowOf i.op = some r ∧ r.build i.operand = i

theorem encb (b : Block) : Statement (.encb b) := ⟨⟨"ENCB", 0x10, .q, .encb⟩, rfl, rfl⟩
theorem decb (b : Block) : Statement (.decb b) := ⟨⟨"DECB", 0x11, .q, .decb⟩, rfl, rfl⟩
theorem putb (b : Byte) : Statement (.putb b) :=
  ⟨⟨"PUTB", 0x20, .b, fun x => .putb (byteOf x)⟩, rfl, by simp [Instr.operand]⟩
theorem pack : Statement .pack := ⟨⟨"PACK", 0x21, .n, fun _ => .pack⟩, rfl, rfl⟩
theorem unpk (b : Block) : Statement (.unpk b) := ⟨⟨"UNPK", 0x22, .q, .unpk⟩, rfl, rfl⟩
theorem getb : Statement .getb := ⟨⟨"GETB", 0x23, .n, fun _ => .getb⟩, rfl, rfl⟩
theorem start : Statement .start := ⟨⟨"START", 0x30, .n, fun _ => .start⟩, rfl, rfl⟩
theorem enc (p : Block) : Statement (.enc p) := ⟨⟨"ENC", 0x31, .q, .enc⟩, rfl, rfl⟩
theorem dec (c : Block) : Statement (.dec c) := ⟨⟨"DEC", 0x32, .q, .dec⟩, rfl, rfl⟩
theorem stat : Statement .stat := ⟨⟨"STAT", 0x40, .n, fun _ => .stat⟩, rfl, rfl⟩
theorem clrf : Statement .clrf := ⟨⟨"CLRF", 0x41, .n, fun _ => .clrf⟩, rfl, rfl⟩

end Sys2Proof.Laws.OpcodeRow
end

