-- ==== Sys2Proof/Laws/Run.lean ====
section
/-! SUPPORT. Runs taken apart: the first action, then the rest. -/

namespace Sys2Proof.Machine

variable (s t : State)

@[simp] theorem runActions_nil : runActions [] s = .next s := rfl

/-- A run goes on from the state its first action leaves. -/
theorem runActions_cons {a : HostAction} {rest : List HostAction} (h : performAction a s = .next t) :
    runActions (a :: rest) s = runActions rest t := by
  simp [runActions, h]

/-- A run that ends in a next state had one after its first action. -/
theorem runActions_cons_inv {a : HostAction} {rest : List HostAction} {u : State}
    (h : runActions (a :: rest) s = .next u) :
    ∃ m, performAction a s = .next m ∧ runActions rest m = .next u := by
  cases ha : performAction a s with
  | next m => exact ⟨m, rfl, by simpa [runActions, ha] using h⟩
  | fault r => simp [runActions, ha] at h
  | refused r => simp [runActions, ha] at h

@[simp] theorem runWords_nil : runWords [] s = .next s := rfl

theorem runWords_cons {w : CmdWord} {rest : List CmdWord} (h : acceptWord w s = .next t) :
    runWords (w :: rest) s = runWords rest t :=
  runActions_cons s t h

theorem runWords_cons_inv {w : CmdWord} {rest : List CmdWord} {u : State} (h : runWords (w :: rest) s = .next u) :
    ∃ m, acceptWord w s = .next m ∧ runWords rest m = .next u :=
  runActions_cons_inv s h

@[simp] theorem core_run_zero : core.run 0 s = .next s := rfl

/-- A run of the machine goes on from the state its first step leaves. -/
theorem core_run_succ {n : Nat} (h : step s = .next t) : core.run (n + 1) s = core.run n t := by
  have h' : core.step s = .next t := h
  simp [Host.Core.run, h']

/-- Commands that run are collected with the responses they add. -/
theorem collect_of_run {is : List Instr} (h : runInstrs is s = .next t) :
    collect is s = some (t, t.pending.drop s.pending.length) := by
  simp [collect, h, nextOf]

end Sys2Proof.Machine
end

