-- ==== Sys2Proof/Tests/Slice0.lean ====
section
/-! SUPPORT. Tests against the spec's own vectors (95_test_vectors.md) and encodings (30_encoding.md R47, R50, R62), and
a witness for the hypotheses of every obligation that has some. Every expected value is the spec's. -/

namespace Sys2Proof.Tests

open Sys2Proof Sys2Proof.Machine

/-- A state in mid-work: a chain of one block (95 S8), three bytes packed, seven to unpack (95 T4). -/
def midWork : State :=
  { State.reset with
    iv := 0x2146207643DD5770, idx := 1, pk := 0x0000000000434241, pkn := 3,
    uq := 0x000123456789ABCD, uqn := 7 }

/-- A full packer (95 T4). -/
def fullPacker : State := { State.reset with pk := 0x4847464544434241, pkn := 8 }

/-- The newest response word of an outcome. -/
def answer (o : Host.Outcome State Fault Refusal) : Option RspWord :=
  (nextOf o).bind fun t => t.pending.getLast?.map Response.toWord

/-! ### Well-formedness: each check refuses an ill-formed term -/

theorem test_putbs_needs_a_byte : (AsmLine.putbs []).wellFormed = false := by decide
theorem test_putbs_takes_at_most_eight : (AsmLine.putbs [1, 2, 3, 4, 5, 6, 7, 8, 9]).wellFormed = false := by decide
theorem test_getbs_zero_refused : (AsmLine.getbs 0).wellFormed = false := by decide
theorem test_getbs_nine_refused : (AsmLine.getbs 9).wellFormed = false := by decide
theorem test_ignored_bits_not_canonical : CmdWord.canonical 0x2000000000DEAD0041 = false := by decide
theorem test_illegal_word_not_canonical : CmdWord.canonical 0x120000000000000000 = false := by decide
theorem test_commands_well_formed : (Instr.putb 0xFF).wellFormed = true ∧ Instr.pack.wellFormed = true := by decide

/-! ### Decoding: words written out from R47 and R50, opcode byte then operand -/

theorem test_decode_block_transform :
    decode (0b00010000#8 ++ 0x0047464544434241#64) = .ok (.encb 0x0047464544434241) ∧
    decode (0b00010001#8 ++ 0xFFFFFFFFFFFFFFFF#64) = .ok (.decb 0xFFFFFFFFFFFFFFFF) := by decide
theorem test_decode_marshaler :
    decode (0b00100000#8 ++ 0x0000000000DEAD00#56 ++ 0b01000001#8) = .ok (.putb 0x41) ∧
    decode (0b00100001#8 ++ 0x123456789ABCDEF0#64) = .ok .pack ∧
    decode (0b00100010#8 ++ 0x0123456789ABCDEF#64) = .ok (.unpk 0x0123456789ABCDEF) ∧
    decode (0b00100011#8 ++ 0#64) = .ok .getb := by decide
theorem test_decode_cbc :
    decode (0b00110000#8 ++ 0xFFFFFFFFFFFFFFFF#64) = .ok .start ∧
    decode (0b00110001#8 ++ 0x6369757120656854#64) = .ok (.enc 0x6369757120656854) ∧
    decode (0b00110010#8 ++ 0x2146207643DD5770#64) = .ok (.dec 0x2146207643DD5770) := by decide
theorem test_decode_system :
    decode (0b01000000#8 ++ 0#64) = .ok .stat ∧ decode (0b01000001#8 ++ 0#64) = .ok .clrf := by decide
/-- 95 T7: the neighbours of every opcode range are illegal. -/
theorem test_decode_illegal_neighbours :
    ([0x00, 0x0F, 0x12, 0x1F, 0x24, 0x2F, 0x33, 0x3F, 0x42, 0x80, 0xFE, 0xFF] : List Byte).all
      (fun op => decide (decode (packWord op 1) = .error (.illegalOp op))) = true := by decide
theorem test_decode_table_words :
    decodeTableWord 72 0x310000000000000000 = some (.enc 0) ∧
    decodeTableWord 72 0x410000000000000000 = some .clrf ∧
    decodeTableWord 72 0x330000000000000000 = none := by decide

/-! ### The pure functions (95 S7, T1, T2, T3, T5) -/

theorem test_rotl_vectors :
    rotl 0x0123456789ABCDEF 0 = 0x0123456789ABCDEF ∧ rotl 0x0123456789ABCDEF 63 = 0x8091A2B3C4D5E6F7 ∧
    rotl 0x0123456789ABCDEF 10 = 0x8D159E26AF37BC04 ∧ rotl 0x8000000000000001 1 = 0x0000000000000003 := by decide
theorem test_rotr_vectors :
    rotr 0x0123456789ABCDEF 0 = 0x0123456789ABCDEF ∧ rotr 0x0123456789ABCDEF 1 = 0x8091A2B3C4D5E6F7 ∧
    rotr 0x0123456789ABCDEF 10 = 0x7BC048D159E26AF3 ∧ rotr 0x8000000000000001 10 = 0x0060000000000000 := by decide
theorem test_rounds_of_s7 :
    encRound 0x0047464544434241 Config.key = 0x0F2DCBBCB3E6CEFF ∧
    encRound 0x0F2DCBBCB3E6CEFF Config.key = 0xA51A2C6225D436C2 ∧
    decRound 0x076C35156DEE6314 Config.key = 0x7A85563AEE34C06A ∧
    decRound 0x0F2DCBBCB3E6CEFF Config.key = 0x0047464544434241 := by decide
theorem test_encrypt_vectors :
    encryptBlock 0x0123456789ABCDEF Config.key = 0xEFE39B1409ED41D9 ∧
    decryptBlock 0x0123456789ABCDEF Config.key = 0x72A303EBBF450D31 := by decide
theorem test_byte_vectors :
    (blockToBytes 0x0123456789ABCDEF).toList = [0xEF, 0xCD, 0xAB, 0x89, 0x67, 0x45, 0x23, 0x01] ∧
    padBlock [0x41, 0x42, 0x43, 0x44, 0x45, 0x46, 0x47] = 0x0047464544434241 := by decide
theorem test_blocks_of_hello_world :
    bytesToBlocks [0x48, 0x65, 0x6C, 0x6C, 0x6F, 0x2C, 0x20, 0x77, 0x6F, 0x72, 0x6C, 0x64] =
      [0x77202C6F6C6C6548, 0x00000000646C726F] ∧
    lastBlockLength [0x48, 0x65, 0x6C, 0x6C, 0x6F, 0x2C, 0x20, 0x77, 0x6F, 0x72, 0x6C, 0x64] = 4 := by decide
theorem test_cbc_vectors :
    cbcEncrypt [0x77202C6F6C6C6548, 0x00000000646C726F] Config.key 0 = [0x284B3C620A84493C, 0xAC15273D6194443E] ∧
    cbcDecrypt [0x2146207643DD5770, 0xFB596F1402FF3F61] Config.key 0 = [0x6369757120656854, 0x206E776F7262206B] := by
  decide

/-! ### One command each (95 T2, T4, T5, T6) -/

theorem test_encb : answer (exec (.encb 0x0123456789ABCDEF) midWork) = some 0x00EFE39B1409ED41D9 := by decide
theorem test_decb : answer (exec (.decb 0x0123456789ABCDEF) midWork) = some 0x0072A303EBBF450D31 := by decide
theorem test_putb_writes_its_lane :
    answer (exec (.putb 0xFF) midWork) = some 0x040000000000000000 ∧
    (nextOf (exec (.putb 0xFF) midWork)).map (fun t => (t.pk, t.pkn)) = some (0x00000000FF434241, 4) := by decide
theorem test_putb_overflow :
    answer (exec (.putb 0x49) fullPacker) = some 0x280000000000000000 ∧
    (nextOf (exec (.putb 0x49) fullPacker)).map (fun t => (t.pk, t.pkn, t.flt)) =
      some (0x4847464544434241, 8, 2) := by decide
theorem test_pack :
    answer (exec .pack fullPacker) = some 0x084847464544434241 ∧
    (nextOf (exec .pack fullPacker)).map (fun t => (t.pk, t.pkn)) = some (0, 0) := by decide
theorem test_pack_empty : answer (exec .pack State.reset) = some 0x000000000000000000 := by decide
theorem test_unpk :
    answer (exec (.unpk 0) midWork) = some 0x080000000000000000 ∧
    (nextOf (exec (.unpk 0) midWork)).map (fun t => (t.uq, t.uqn)) = some (0, 8) := by decide
theorem test_getb_last_byte :
    answer (exec .getb { midWork with uq := 1, uqn := 1 }) = some 0x000000000000000001 ∧
    (nextOf (exec .getb { midWork with uq := 1, uqn := 1 })).map (fun t => (t.uq, t.uqn)) = some (0, 0) := by decide
theorem test_getb_empty :
    answer (exec .getb State.reset) = some 0x300000000000000000 ∧
    (nextOf (exec .getb State.reset)).map (fun t => (t.uqn, t.flt)) = some (0, 3) := by decide
theorem test_start :
    (nextOf (exec .start midWork)).map (fun t => (t.iv, t.idx, t.pk, t.uqn)) = some (0, 0, 0x434241, 7) := by decide
theorem test_enc_first_block :
    answer (exec (.enc 0x6369757120656854) State.reset) = some 0x002146207643DD5770 := by decide
theorem test_enc_wraps_idx :
    (nextOf (exec (.enc 7) { State.reset with idx := 0xFFFFFFFF })).map (fun t => t.idx) = some 0 := by decide
theorem test_dec_uses_old_iv :
    answer (exec (.dec 0xFB596F1402FF3F61) midWork) = some 0x00206E776F7262206B ∧
    (nextOf (exec (.dec 0xFB596F1402FF3F61) midWork)).map (fun t => (t.iv, t.idx)) =
      some (0xFB596F1402FF3F61, 2) := by decide
theorem test_stat :
    answer (exec .stat { State.reset with idx := 0xFFFFFFFF, pkn := 8, uqn := 8, flt := 3 }) =
      some 0x0000000388FFFFFFFF := by decide
theorem test_clrf :
    (nextOf (exec .clrf { midWork with flt := 2 })).map (fun t => (t.flt, t.pkn)) = some (0, 3) := by decide

/-! ### Steps -/

/-- 95 T6: an illegal word with FLT already 3 keeps it. -/
theorem test_step_illegal_keeps_first_fault :
    answer (step (({ State.reset with flt := 3 } : State).withFetchWord 72 0xFFFFFFFFFFFFFFFFFF)) =
      some 0x100000000000000000 ∧
    (nextOf (step (({ State.reset with flt := 3 } : State).withFetchWord 72 0xFFFFFFFFFFFFFFFFFF))).map (fun t => t.flt) =
      some 3 := by decide
theorem test_step_runs_presented_word :
    answer (step (State.reset.withFetchWord 72 0x310000000000000000)) = some 0x00442E74152AA82650 := by decide
theorem test_step_reset :
    nextOf (step { midWork with inputs := [.reset], pending := [⟨0, 0, 0⟩] }) = some State.reset := by decide
theorem test_step_take :
    (nextOf (step { midWork with inputs := [.take], pending := [⟨0, 1, 2⟩, ⟨0, 3, 4⟩] })).map
      (fun t => (t.pending, t.received)) = some ([⟨0, 3, 4⟩], [⟨0, 1, 2⟩]) := by decide
theorem test_step_holds : nextOf (step midWork) = some midWork := by decide

/-! ### The assembler (R60, R61, 95 P1 to P5) and the ports (R52) -/

theorem test_parse_enc :
    parseLine "ENC 0x6369757120656854 ; first block".toList = some (.instr (.enc 0x6369757120656854)) := by decide
theorem test_parse_putb_character : parseLine "PUTB 'H'".toList = some (.instr (.putb 0x48)) := by decide
theorem test_parse_putbs :
    parseLine "PUTBS 0x6F, 0x72, 0x6C, 0x64".toList = some (.putbs [0x6F, 0x72, 0x6C, 0x64]) := by decide
theorem test_parse_raw_word :
    parseLine ".word 0xFFFFFFFFFFFFFFFFFF".toList = some (.word 0xFFFFFFFFFFFFFFFFFF) ∧
    parseLine "ENC 0x12".toList = none ∧ parseLine "GETBS 9".toList = none := by decide
theorem test_assemble :
    assemble ["reset".toList, "START".toList, "GETBS 2".toList] =
      some [.reset, .command 0x300000000000000000, .command 0x230000000000000000, .command 0x230000000000000000] := by
  decide
/-- R78: a block of each direction in the pipeline at once; the expected blocks are those of 95 T2. -/
theorem test_pipeline_mixes_directions :
    (Pipeline.empty.feed Config.key
      [some (.encrypt, 0x0123456789ABCDEF), some (.decrypt, 0x0123456789ABCDEF), none, none]).stage4 =
      some (.encrypt, 0xEFE39B1409ED41D9) ∧
    (Pipeline.empty.feed Config.key
      [some (.encrypt, 0x0123456789ABCDEF), some (.decrypt, 0x0123456789ABCDEF), none, none, none]).stage4 =
      some (.decrypt, 0x72A303EBBF450D31) := by decide
/-- R9, R52: START accepted, and its response delivered at the same edge (log entry 16) or at a later one. -/
theorem test_wave_response_at_the_accepting_edge :
    legalWave [⟨false, true, true, 0x300000000000000000, true, true, 0⟩] State.reset = true ∧
    legalWave [⟨false, true, true, 0x300000000000000000, false, true, 0⟩, ⟨false, false, true, 0, true, true, 0⟩]
      State.reset = true ∧
    legalWave [⟨false, false, true, 0, true, true, 0⟩] State.reset = false := by decide
theorem test_wave_reset_takes_nothing :
    Edge.actions ⟨true, true, false, 0, false, true, 0⟩ = [.reset] ∧
    legalWave [⟨true, false, true, 0, false, false, 0⟩] State.reset = false := by decide

/-! ### The host's procedures (R91, R105, R136 (h)) and the end of a run (R141) -/

/-- 95 P5: eleven ciphertext bytes; the second PACK gives CNT 3. -/
theorem test_short_ciphertext_is_malformed :
    ciphertextBlocks [⟨0, 8, 0x284B3C620A84493C⟩, ⟨0, 3, 0x000000000094443E⟩] = none ∧
    ciphertextBlocks [⟨0, 8, 0x284B3C620A84493C⟩, ⟨0, 0, 0⟩] = some [0x284B3C620A84493C] := by decide
theorem test_run_ends_with_the_last_response :
    ¬ RunEnded { State.reset with pending := [⟨0, 0, 0⟩] } ∧ ¬ RunEnded { State.reset with inputs := [.take] } ∧
    RunEnded State.reset := by decide
/-- R131: the response to an accepted START is withdrawn by reset; the run counts as ended (log entry 18). -/
theorem test_run_ends_after_a_withdrawn_response :
    (nextOf (runActions [.command 0x300000000000000000] State.reset)).map (fun t => decide (RunEnded t)) = some false ∧
    (nextOf (runActions [.command 0x300000000000000000, .reset] State.reset)).map (fun t => decide (RunEnded t)) =
      some true := by decide

/-! ### Witnesses: the hypotheses of the obligations can be met -/

theorem witness_EncodedCommandDecodesToItself : ∃ i : Instr, i.wellFormed = true := ⟨.pack, rfl⟩
theorem witness_DecodedWordReencodesCanonically :
    (decode 0x2000000000DEAD0041 = .ok (.putb 0x41)) ∧ decode 0x300000000000000000 = .ok .start := by decide
theorem witness_DecoderIsTotalByOpcode : opOf 0x41FFFFFFFFFFFFFFFF ∈ definedOps ∧ opOf 0x420000000000000000 ∉ definedOps := by
  decide
theorem witness_IgnoredOperandBits_n : ∃ r, rowOf 0x30 = some r ∧ r.format = .n :=
  ⟨⟨"START", 0x30, .n, fun _ => .start⟩, rfl, rfl⟩
theorem witness_IgnoredOperandBits_b :
    ∃ r, rowOf 0x20 = some r ∧ r.format = .b ∧ (0xDEAD0041#64).extractLsb' 0 8 = (0x41#64).extractLsb' 0 8 :=
  ⟨⟨"PUTB", 0x20, .b, fun x => .putb (byteOf x)⟩, rfl, rfl, by decide⟩
theorem witness_IgnoredOperandBits_q : ∃ r, rowOf 0x31 = some r ∧ r.format = .q :=
  ⟨⟨"ENC", 0x31, .q, .enc⟩, rfl, rfl⟩
theorem witness_IllegalWordRaisesIllegalOp :
    opOf 0x0FFFFFFFFFFFFFFFFF ∉ definedOps ∧ opOf 0x120000000000000000 ∉ definedOps ∧
    opOf 0xFF0000000000000000 ∉ definedOps := by decide
theorem witness_ResponseWordHasItsFields :
    ∃ t, RegistersOk fullPacker ∧ acceptWord 0x200000000000000049 fullPacker = .next t ∧
      Answers fullPacker t ⟨2, 8, 0⟩ := ⟨_, by decide, rfl, by decide⟩
theorem witness_RotationsAndRoundsFollowTheirFormulas : 1 ≤ (1 : Fin 64).val ∧ 1 ≤ (63 : Fin 64).val := by decide
theorem witness_EncbAnswersEncryptedBlock : opOf 0x100000000000000000 = 0x10 := by decide
theorem witness_DecbAnswersDecryptedBlock : opOf 0x11FFFFFFFFFFFFFFFF = 0x11 := by decide
theorem witness_PadBlockZeroFillsUpperLanes :
    ([] : List Byte).length ≤ 8 ∧ [1, 2, 3, 4, 5, 6, 7, (8 : Byte)].length ≤ 8 ∧
    [1, 2, 3, 4, 5, 6, (7 : Byte)].length < 8 := by decide
theorem witness_BlocksOfBytesRoundTrip : [(1 : Byte)] ≠ [] := by decide
theorem witness_PutbPushesOneLane_decode : opOf 0x2000000000DEAD0041 = 0x20 := by decide
theorem witness_PutbPushesOneLane_full : fullPacker.pkn = 8 := by decide
theorem witness_PutbPushesOneLane_push :
    PackerOk State.reset ∧ State.reset.pkn.toNat < 8 ∧
    PackerOk { State.reset with pk := 0x0047464544434241, pkn := 7 } ∧
    ({ State.reset with pk := 0x0047464544434241, pkn := 7 } : State).pkn.toNat < 8 ∧
    ∃ t, exec (.putb 0x48) { State.reset with pk := 0x0047464544434241, pkn := 7 } = .next t :=
  ⟨by decide, by decide, by decide, by decide, _, rfl⟩
theorem witness_PackTakesThePaddedBlock :
    opOf 0x210000000000000000 = 0x21 ∧ [1, 2, 3, 4, 5, 6, 7, (8 : Byte)].length ≤ 8 ∧ ([] : List Byte).length ≤ 8 ∧
    State.reset.pkn = 0 ∧ State.reset.pk = 0 ∧ ∃ t, exec .pack fullPacker = .next t :=
  ⟨by decide, by decide, by decide, by decide, by decide, _, rfl⟩
theorem witness_UnpkLoadsTheUnpacker : opOf 0x220123456789ABCDEF = 0x22 := by decide
theorem witness_GetbPopsTheNextByte :
    opOf 0x230000000000000000 = 0x23 ∧ State.reset.uqn = 0 ∧ midWork.uqn ≠ 0 ∧
    ({ midWork with uqn := 1 } : State).uqn ≠ 0 ∧
    ({ State.reset with uq := 0x0123456789ABCDEF, uqn := 8 } : State).uq = 0x0123456789ABCDEF ∧
    ({ State.reset with uq := 0x0123456789ABCDEF, uqn := 8 } : State).uqn = 8 := by decide
theorem witness_PackStreamYieldsBlocksOfBytes :
    PackerOk State.reset ∧ State.reset.pkn = 0 ∧ 1 ≤ [(0 : Byte)].length ∧
    [1, 2, 3, 4, 5, 6, 7, (8 : Byte)].length ≤ 8 ∧ [(0 : Byte)] ≠ [] := by decide
theorem witness_UnpackStreamYieldsBytesOfBlocks : PackerOk State.reset ∧ State.reset.pkn = 0 := by decide
theorem witness_ChainDependencyIsExact :
    (0 < [(0 : Block)].length ∧ (0x8000000000000000 : Block) ≠ 0) ∧
    (0 < [0, (1 : Block)].length ∧ 0 ≤ 1 ∧ 1 < [0, (1 : Block)].length ∧ (1 : Block) ≠ 0) := by decide
theorem witness_StartBeginsAChain : opOf 0x30FFFFFFFFFFFFFFFF = 0x30 := by decide
theorem witness_EncAdvancesTheChain :
    opOf 0x310000000000000000 = 0x31 ∧ State.reset.iv = 0 ∧ State.reset.idx = 0 ∧
    ∃ t u, exec (.enc 5) midWork = .next t ∧ Answers midWork t ⟨0, 0, encryptBlock (midWork.iv ^^^ 5) Config.key⟩ ∧
      exec (.enc 5) t = .next u ∧ Answers t u ⟨0, 0, encryptBlock (t.iv ^^^ 5) Config.key⟩ :=
  ⟨by decide, by decide, by decide, _, _, rfl, ⟨rfl, rfl, rfl⟩, rfl, ⟨rfl, rfl, rfl⟩⟩
theorem witness_EncAdvancesTheChain_wrap :
    ∃ t, ({ State.reset with idx := 0xFFFFFFFF } : State).idx = 0xFFFFFFFF ∧
      exec (.enc 0) { State.reset with idx := 0xFFFFFFFF } = .next t := ⟨_, rfl, rfl⟩
theorem witness_DecAdvancesTheChain :
    opOf 0x320000000000000000 = 0x32 ∧ State.reset.iv = 0 ∧ State.reset.idx = 0 := by decide
theorem witness_EncStreamComputesCbcEncrypt :
    RegistersOk midWork ∧ decode 0x300000000000000000 = .ok .start ∧
    ∀ w ∈ ([0x310000000000000001, 0x200000000000000041, 0, 0x310000000000000002] : List CmdWord),
      decode w ≠ .ok .start ∧ ∀ c, decode w ≠ .ok (.dec c) := by
  refine ⟨by decide, by decide, ?_⟩
  intro w hw
  simp only [List.mem_cons, List.not_mem_nil, or_false] at hw
  rcases hw with rfl | rfl | rfl | rfl <;> exact ⟨by decide, fun c h => by cases h⟩
theorem witness_DecStreamComputesCbcDecrypt :
    RegistersOk midWork ∧ decode 0x300000000000000000 = .ok .start ∧
    ∀ w ∈ ([0x320000000000000001, 0x210000000000000000, 0x320000000000000002] : List CmdWord),
      decode w ≠ .ok .start ∧ ∀ p, decode w ≠ .ok (.enc p) := by
  refine ⟨by decide, by decide, ?_⟩
  intro w hw
  simp only [List.mem_cons, List.not_mem_nil, or_false] at hw
  rcases hw with rfl | rfl | rfl <;> exact ⟨by decide, fun c h => by cases h⟩
theorem witness_ChunkIsRecovered :
    PackerOk { midWork with pk := 0, pkn := 0 } ∧ ({ midWork with pk := 0, pkn := 0 } : State).pkn = 0 ∧
    ([] : List Byte).length % 8 = 0 ∧ [1, 2, 3, 4, 5, 6, 7, (8 : Byte)].length % 8 = 0 ∧
    ¬ [(1 : Byte)].length % 8 = 0 ∧ ¬ [1, 2, 3, 4, 5, 6, (7 : Byte)].length % 8 = 0 := by decide
theorem witness_StatShowsTheStatusWord :
    opOf 0x400000000000000000 = 0x40 ∧
    ({ State.reset with idx := 1, pkn := 1, uqn := 6, flt := 1 } : State).idx = 1 ∧
    ({ State.reset with idx := 1, pkn := 1, uqn := 6, flt := 1 } : State).pkn = 1 ∧
    ({ State.reset with idx := 1, pkn := 1, uqn := 6, flt := 1 } : State).uqn = 6 ∧
    ({ State.reset with idx := 1, pkn := 1, uqn := 6, flt := 1 } : State).flt = 1 := by decide
theorem witness_ClrfClearsTheFaultRegister :
    opOf 0x410000000000000000 = 0x41 ∧
    ∃ t u, exec .clrf fullPacker = .next t ∧ acceptWord 0x200000000000000049 t = .next u ∧ Answers t u ⟨2, 8, 0⟩ ∧
      (⟨2, 8, 0⟩ : Response).code ≠ 0 := ⟨by decide, _, _, rfl, rfl, by decide, by decide⟩
theorem witness_FaultsHaveTheirConditions_illegal :
    ∃ t, acceptWord 0 midWork = .next t ∧ Answers midWork t ⟨1, 0, 0⟩ ∧ (⟨1, 0, 0⟩ : Response).code ≠ 0 :=
  ⟨_, rfl, by decide, by decide⟩
theorem witness_FaultEntryIsPrecise_overflow :
    ∃ t, acceptWord 0x200000000000000049 fullPacker = .next t ∧ Answers fullPacker t ⟨2, 8, 0⟩ ∧
      (⟨2, 8, 0⟩ : Response).code ≠ 0 := ⟨_, rfl, by decide, by decide⟩
theorem witness_FaultRegisterGatesNothing_empty :
    ∃ t, acceptWord 0x230000000000000000 State.reset = .next t ∧ Answers State.reset t ⟨3, 0, 0⟩ ∧
      (⟨3, 0, 0⟩ : Response).code ≠ 0 ∧ decode 0x230000000000000000 ≠ .ok .stat := ⟨_, rfl, by decide, by decide, by decide⟩
theorem witness_FirstFaultIsKept :
    ∃ t, runWords [0, 0x230000000000000000] State.reset = .next t ∧
      ∀ w ∈ ([0, 0x230000000000000000] : List CmdWord), decode w ≠ .ok .clrf := by
  refine ⟨_, rfl, ?_⟩
  intro w hw
  simp only [List.mem_cons, List.not_mem_nil, or_false] at hw
  rcases hw with rfl | rfl <;> decide
theorem witness_CountFieldPerCommand :
    ∃ t, RegistersOk midWork ∧ exec .getb midWork = .next t ∧ Answers midWork t ⟨0, 6, 0xCD⟩ :=
  ⟨_, by decide, rfl, by decide⟩
theorem witness_DutifulHostSeesNoFault :
    RegistersOk fullPacker ∧
    dutiesKept [0x210000000000000000, 0x200000000000000041] fullPacker.pkn.toNat fullPacker.uqn.toNat = true ∧
    dutiesKept [0x200000000000000041] fullPacker.pkn.toNat fullPacker.uqn.toNat = false ∧
    dutiesKept [0x230000000000000000] fullPacker.pkn.toNat fullPacker.uqn.toNat = false := by decide
theorem witness_OnlyStopIsPutbBeyondTheLanes :
    8 < ({ State.reset with pkn := 9 } : State).pkn.toNat ∧ 8 < ({ State.reset with pkn := 15 } : State).pkn.toNat ∧
    exec (.putb 0) { State.reset with pkn := 9 } = .fault .packLaneOutOfRange := ⟨by decide, by decide, rfl⟩
theorem witness_AssertingResetRestoresEveryRegister :
    ({ midWork with inputs := [.reset, .take] } : State).inputs = .reset :: [.take] := rfl
theorem witness_StepKeepsRegistersLegal :
    ∃ t, RegistersOk midWork ∧ step (midWork.withInputs [.command 0x2000000000000000FF]) = .next t ∧
      RegistersOk (midWork.withInputs [.command 0x2000000000000000FF]) := ⟨_, by decide, rfl, by decide⟩
theorem witness_StepKeepsTheInvariant :
    ∃ t, Inv (fullPacker.withInputs [.command 0x200000000000000049]) ∧
      step (fullPacker.withInputs [.command 0x200000000000000049]) = .next t := ⟨_, by decide, rfl⟩
theorem witness_LegalMachineNeverStops : RegistersOk fullPacker ∧ RegistersOk midWork := by decide
theorem witness_ResponsesMatchCommandsInOrder :
    ∃ t, runActions [.command 0x400000000000000000, .take, .take] midWork = .next t ∧
      HostAction.reset ∉ [HostAction.command 0x400000000000000000, .take, .take] := ⟨_, rfl, by decide⟩
theorem witness_CommandsWriteOnlyTheirRegisters :
    ∃ t, exec .stat midWork = .next t ∧ (∀ p, Instr.stat ≠ .enc p) ∧ (∀ c, Instr.stat ≠ .dec c) ∧
      Instr.stat ≠ .start ∧ (∀ b, Instr.stat ≠ .putb b) ∧ Instr.stat ≠ .pack ∧ (∀ b, Instr.stat ≠ .unpk b) ∧
      Instr.stat ≠ .getb ∧ Instr.stat ≠ .clrf :=
  ⟨_, rfl, by simp, by simp, by simp, by simp, by simp, by simp, by simp, by simp⟩
theorem witness_CommandsReadOnlyTheirRegisters :
    ∃ t, readsAgree .getb midWork { midWork with iv := 0, pkn := 8, flt := 2 } ∧ exec .getb midWork = .next t :=
  ⟨_, by decide, rfl⟩
theorem witness_IdempotencyTable : RegistersOk State.reset ∧ RegistersOk fullPacker ∧ RegistersOk midWork := by decide
theorem witness_RegistersIgnoreThePortRecord :
    ∃ t, SameRegisters midWork { midWork with pending := [⟨0, 0, 0⟩], faulted := true } ∧
      performAction (.command 0x230000000000000000) midWork = .next t := ⟨_, by decide, rfl⟩
theorem witness_StepRunsTheDecodedCommand :
    (midWork.withInputs [.command 0x400000000000000000]).inputs = [.command 0x400000000000000000] ∧
    decode 0x400000000000000000 = .ok .stat ∧ Instr.stat.wellFormed = true ∧
    opOf 0x420000000000000000 ∉ definedOps ∧ midWork.inputs = [] ∧
    ({ midWork with inputs := [.take], pending := [⟨0, 1, 2⟩] } : State).pending = [⟨0, 1, 2⟩] ∧
    midWork.pending = [] ∧ decodeTableWord 72 0x400000000000000000 = some .stat := by decide
theorem witness_StepsPerformThePresentedActions :
    (midWork.withInputs [.take, .reset]).inputs = [.take, .reset] ∧ RunEnded midWork ∧
    RegistersOk (midWork.withInputs (wholeRun [0, 0x230000000000000000])) ∧
    (midWork.withInputs (wholeRun [0, 0x230000000000000000])).pending = [] ∧
    (midWork.withInputs (wholeRun [0, 0x230000000000000000])).inputs =
      [.command 0, .command 0x230000000000000000, .take, .take] := by decide
theorem witness_WaveformDeliversTheResponses :
    legalWave [⟨true, false, false, 0, false, false, 0⟩, ⟨false, true, false, 0x300000000000000000, false, false, 0⟩,
      ⟨false, true, true, 0x300000000000000000, false, false, 0⟩, ⟨false, false, true, 0, true, true, 0⟩] midWork = true := by
  decide
theorem witness_PseudoInstructionsExpand :
    1 ≤ [(0x41 : Byte)].length ∧ [1, 2, 3, 4, 5, 6, 7, (8 : Byte)].length ≤ 8 ∧
    expandLine (.getbs 9) = none ∧ RegistersOk State.reset ∧
    expandLine (.getbs 1) = some [.command 0x230000000000000000] ∧
    HostAction.reset ∉ [HostAction.command 0x230000000000000000] := by decide

end Sys2Proof.Tests
end

/-! SUPPORT. The family of 00_scope.md: a command is a function of the seven registers (R10, R15, R16), and a step of
the machine is the next host action (R10, R44, R141). -/

namespace Sys2Proof.Machine

/-! ### Executing is answering from the registers -/

section answers
variable (s : State)

/-- Each arm of `exec` performs the answer `commandAnswer` gives. -/
theorem exec_eq_performOr_commandAnswer (i : Instr) : exec i s = s.performOr (commandAnswer i s.toRegisters) := by
  cases i <;> rfl

theorem acceptWord_eq_performOr_wordAnswer (w : CmdWord) :
    acceptWord w s = s.performOr (wordAnswer w s.toRegisters) := by
  cases h : decode w with
  | ok i => simp only [acceptWord, wordAnswer, h, exec_eq_performOr_commandAnswer]
  | error e => simp only [acceptWord, wordAnswer, h, State.performOr_ok, State.raise]

theorem performOr_eq_next_iff {x : Except Fault Answer} {t : State} :
    s.performOr x = .next t ↔ ∃ a, x = .ok a ∧ s.perform a = t := by
  cases x <;> simp

end answers

/-- Equal registers stay equal under every host action, whatever stands beside them. -/
theorem performAction_sameRegisters {a : HostAction} {s s' t : State} (hs : SameRegisters s s')
    (ht : performAction a s = .next t) : ∃ t', performAction a s' = .next t' ∧ SameRegisters t t' := by
  cases a with
  | reset => cases ht; exact ⟨s'.assertReset, rfl, rfl⟩
  | take =>
    cases ht
    exact ⟨s'.deliver, rfl, s.deliver_toRegisters.trans (hs.trans s'.deliver_toRegisters.symm)⟩
  | command w =>
    have hw : acceptWord w s = .next t := ht
    rw [acceptWord_eq_performOr_wordAnswer, performOr_eq_next_iff] at hw
    obtain ⟨x, hx, rfl⟩ := hw
    refine ⟨s'.perform x, ?_, rfl⟩
    calc acceptWord w s' = s'.performOr (wordAnswer w s'.toRegisters) := acceptWord_eq_performOr_wordAnswer s' w
      _ = .next (s'.perform x) := by rw [← hs, hx, State.performOr_ok]

/-! ### One step -/

/-- An opcode that is none of the eleven selects no row (R50, R57). -/
theorem rowOf_eq_none_of_undefined {op : Byte} (h : op ∉ definedOps) : rowOf op = none :=
  (rowOf_eq_none_iff op).2 h

theorem decode_tableWord_of_decodeTableWord {n w : Nat} {i : Instr} (h : decodeTableWord n w = some i) :
    decode (tableWord n w) = .ok i := by
  cases hd : decode (tableWord n w) with
  | ok j => simpa [decodeTableWord, hd] using h
  | error e => simp [decodeTableWord, hd] at h

section steps
variable (s : State)

theorem step_of_inputs_cons {a : HostAction} {rest : List HostAction} (h : s.inputs = a :: rest) :
    step s = performAction a (s.withInputs rest) := by
  simp [step, stepInputs, h]

theorem step_of_inputs_nil (h : s.inputs = []) : step s = .next s := by
  simp [step, stepInputs, h]

theorem deliver_of_pending_nil (h : s.pending = []) : s.deliver = s := by
  simp [State.deliver, h]

theorem deliver_of_pending_cons {r : Response} {more : List Response} (h : s.pending = r :: more) :
    s.deliver = { s with pending := more, received := s.received ++ [r] } := by
  simp [State.deliver, h]

/-- Presenting a table word and stepping takes just that word: the actions still to come are as before. -/
theorem step_withFetchWord (n w : Nat) : step (s.withFetchWord n w) = acceptWord (tableWord n w) s := rfl

end steps

/-! ### Steps perform the presented actions -/

/-- The next state, where an outcome holds one, changed by `f`; a stop is left as it is. -/
def mapNext (f : State → State) : Host.Outcome State Fault Refusal → Host.Outcome State Fault Refusal
  | .next t => .next (f t)
  | .fault r => .fault r
  | .refused r => .refused r

@[simp] theorem mapNext_next (f : State → State) (t : State) : mapNext f (.next t) = .next (f t) := rfl
@[simp] theorem mapNext_fault (f : State → State) (r : Fault) : mapNext f (.fault r) = .fault r := rfl
@[simp] theorem mapNext_refused (f : State → State) (r : Refusal) : mapNext f (.refused r) = .refused r := rfl

section presented
variable (s : State)

theorem State.performOr_withInputs (x : Except Fault Answer) (l : List HostAction) :
    (s.withInputs l).performOr x = mapNext (State.withInputs l) (s.performOr x) := by
  cases x <;> rfl

theorem State.deliver_withInputs (l : List HostAction) : (s.withInputs l).deliver = s.deliver.withInputs l := by
  rcases deliver_cases s with ⟨hp, hd⟩ | ⟨r, rest, hp, hd⟩
  · rw [hd, deliver_of_pending_nil _ (by simpa using hp)]
  · rw [hd, deliver_of_pending_cons _ (by simpa using hp)]; rfl

/-- A host action neither reads nor changes the actions still to come. -/
theorem performAction_withInputs (a : HostAction) (l : List HostAction) :
    performAction a (s.withInputs l) = mapNext (State.withInputs l) (performAction a s) := by
  cases a with
  | reset => rfl
  | take => exact congrArg Host.Outcome.next (s.deliver_withInputs l)
  | command w =>
    calc acceptWord w (s.withInputs l) = (s.withInputs l).performOr (wordAnswer w s.toRegisters) :=
          acceptWord_eq_performOr_wordAnswer _ w
      _ = mapNext (State.withInputs l) (acceptWord w s) := by
          rw [State.performOr_withInputs, acceptWord_eq_performOr_wordAnswer]

/-- As many steps as there are actions presented perform those actions in order. -/
theorem core_run_withInputs (as : List HostAction) :
    core.run as.length (s.withInputs as) = runActions as (s.withInputs []) := by
  induction as generalizing s with
  | nil => rfl
  | cons a rest ih =>
    have hstep : core.step (s.withInputs (a :: rest)) = mapNext (State.withInputs rest) (performAction a s) :=
      performAction_withInputs s a rest
    simp only [List.length_cons, Host.Core.run, runActions, hstep, performAction_withInputs s a []]
    cases performAction a s with
    | next t => exact ih t
    | fault r => rfl
    | refused r => rfl

theorem core_run_of_inputs_nil (n : Nat) (h : s.inputs = []) : core.run n s = .next s := by
  induction n with
  | zero => rfl
  | succ n ih => rw [core_run_succ s s (step_of_inputs_nil s h), ih]

end presented

/-! ### A whole run -/

theorem runActions_append {as : List HostAction} {s t : State} (bs : List HostAction) (h : runActions as s = .next t) :
    runActions (as ++ bs) s = runActions bs t := by
  induction as generalizing s with
  | nil => cases h; rfl
  | cons a rest ih =>
    obtain ⟨m, ha, hm⟩ := runActions_cons_inv s h
    rw [List.cons_append, runActions_cons s m ha, ih hm]

/-- PKN stays at most 8 (R28 (a)): only PUTB raises it, and only from below 8. -/
theorem commandAnswer_pkn_le {i : Instr} {r : Registers} {a : Answer} (hr : r.pkn.toNat ≤ 8)
    (h : commandAnswer i r = .ok a) : a.regs.pkn.toNat ≤ 8 := by
  rcases commandAnswer_cases r h with ⟨_, _, rfl⟩ | ⟨_, _, rfl⟩ | ⟨_, _, _, rfl⟩ | ⟨_, _, hlt, rfl⟩ | ⟨_, rfl⟩ |
    ⟨_, _, rfl⟩ | ⟨_, _, rfl⟩ | ⟨_, _, rfl⟩ | ⟨_, rfl⟩ | ⟨_, _, rfl⟩ | ⟨_, _, rfl⟩ | ⟨_, rfl⟩ | ⟨_, rfl⟩
  · exact hr
  · exact hr
  · exact hr
  · show (r.pkn + 1).toNat ≤ 8
    bv_omega
  · exact Nat.zero_le 8
  all_goals exact hr

/-- With PKN at most 8 every word has an answer, and PKN is at most 8 after it. -/
theorem wordAnswer_completes (w : CmdWord) {r : Registers} (hr : r.pkn.toNat ≤ 8) :
    ∃ a, wordAnswer w r = .ok a ∧ a.regs.pkn.toNat ≤ 8 := by
  cases hd : decode w with
  | ok i =>
    obtain ⟨a, ha⟩ := commandAnswer_completes r i hr
    exact ⟨a, by simpa only [wordAnswer, hd] using ha, commandAnswer_pkn_le hr ha⟩
  | error e => exact ⟨r.raise .illegalOp, by simp only [wordAnswer, hd], hr⟩

/-- With PKN at most 8 any words run, each adding one response and none delivered. -/
theorem runWords_completes (s : State) (ws : List CmdWord) (hs : s.pkn.toNat ≤ 8) :
    ∃ t rs, runWords ws s = .next t ∧ t.pending = s.pending ++ rs ∧ rs.length = ws.length ∧
      t.received = s.received ∧ t.inputs = s.inputs := by
  induction ws generalizing s with
  | nil => exact ⟨s, [], rfl, by simp⟩
  | cons w rest ih =>
    obtain ⟨a, ha, hpkn⟩ := wordAnswer_completes w hs
    have hw : acceptWord w s = .next (s.perform a) := by
      rw [acceptWord_eq_performOr_wordAnswer, ha, State.performOr_ok]
    obtain ⟨t, rs, hrun, hpend, hlen, hrec, hin⟩ := ih (s.perform a) hpkn
    refine ⟨t, a.rsp :: rs, ?_, ?_, ?_, hrec, hin⟩
    · rw [runWords_cons s _ hw, hrun]
    · simpa using hpend
    · simpa using hlen

/-- Taking as many responses as are pending delivers all of them, in order. -/
theorem runActions_take_all (s : State) :
    runActions (List.replicate s.pending.length .take) s =
      .next { s with pending := [], received := s.received ++ s.pending } := by
  generalize hp : s.pending = ps
  induction ps generalizing s with
  | nil =>
    show Host.Outcome.next s = .next { s with pending := [], received := s.received ++ [] }
    rw [List.append_nil, ← hp]
  | cons r more ih =>
    have hfirst : performAction .take s = .next { s with pending := more, received := s.received ++ [r] } :=
      congrArg Host.Outcome.next (deliver_of_pending_cons s hp)
    rw [List.length_cons, List.replicate_succ, runActions_cons s _ hfirst, ih _ rfl]
    simp

/-- From PKN at most 8 with no response pending, a whole run delivers the responses its words give, one each. -/
theorem runActions_wholeRun {s : State} (ws : List CmdWord) (hs : s.pkn.toNat ≤ 8) (hp : s.pending = []) :
    ∃ u, runWords ws s = .next u ∧ u.pending.length = ws.length ∧ u.received = s.received ∧ u.inputs = s.inputs ∧
      runActions (wholeRun ws) s = .next { u with pending := [], received := u.received ++ u.pending } := by
  obtain ⟨u, rs, hrun, hpend, hlen, hrec, hin⟩ := runWords_completes s ws hs
  have hcount : u.pending.length = ws.length := by rw [hpend, hp, List.nil_append, hlen]
  refine ⟨u, hrun, hcount, hrec, hin, ?_⟩
  rw [wholeRun, runActions_append _ hrun, ← hcount, runActions_take_all]

/-! ### The obligations -/

/-- Settles O56: the arms of `exec` are the answers of `commandAnswer`, and a word's answer sees only the registers. -/
theorem registersIgnoreThePortRecord : Obligations.RegistersIgnoreThePortRecord :=
  ⟨fun i s => exec_eq_performOr_commandAnswer s i, fun w s => acceptWord_eq_performOr_wordAnswer s w,
    fun _ _ _ _ hs ht => performAction_sameRegisters hs ht⟩

/-- Settles O57, by the equations of `step` for each kind of next action. -/
theorem stepRunsTheDecodedCommand : Obligations.StepRunsTheDecodedCommand := by
  refine ⟨?decoded, ?illegal, step_of_inputs_nil, ?taken, ?nothingToTake, ?tableWord⟩
  case decoded =>
    intro s w rest i hin hd _
    exact (step_of_inputs_cons s hin).trans (acceptWord_decoded _ hd)
  case illegal =>
    intro s w rest hin hop
    exact (step_of_inputs_cons s hin).trans (acceptWord_illegal _ (rowOf_eq_none_of_undefined hop))
  case taken =>
    intro s rest r more hin hp
    exact (step_of_inputs_cons s hin).trans (congrArg Host.Outcome.next (deliver_of_pending_cons _ hp))
  case nothingToTake =>
    intro s rest hin hp
    exact (step_of_inputs_cons s hin).trans (congrArg Host.Outcome.next (deliver_of_pending_nil _ hp))
  case tableWord =>
    intro s n w i hd
    rw [step_withFetchWord, acceptWord_decoded s (decode_tableWord_of_decodeTableWord hd)]

/-- Settles O58: steps perform the presented actions since no action looks at those still to come; a whole run then
issues its words and takes what they answered. -/
theorem stepsPerformThePresentedActions : Obligations.StepsPerformThePresentedActions := by
  have hsteps (as : List HostAction) (s : State) (hin : s.inputs = as) :
      core.run as.length s = runActions as { s with inputs := [] } := by
    subst hin
    exact core_run_withInputs s s.inputs
  refine ⟨hsteps, fun s n ⟨hin, _⟩ => core_run_of_inputs_nil s n hin, ?_⟩
  intro s ws ⟨⟨hpkn, _⟩, _⟩ hp hin
  obtain ⟨u, hrun, hlen, hrec, hinputs, hwhole⟩ :=
    runActions_wholeRun (s := { s with inputs := [] }) ws hpkn hp
  refine ⟨{ u with pending := [], received := u.received ++ u.pending }, u.pending,
    (hsteps _ s hin).trans hwhole, ⟨hinputs, rfl⟩, ?_, hlen, u, hrun, rfl, rfl⟩
  exact congrArg (· ++ u.pending) hrec

end Sys2Proof.Machine

/-! SUPPORT. The family of 10_state.md: what the registers hold after reset and after every step (R28), and which of
them each command reads and writes (R29). -/

namespace Sys2Proof.Machine

/-! ### Legal registers -/

/-- The invariants of R28 on the registers alone. -/
structure Registers.Legal (r : Registers) : Prop where
  pkn_le : r.pkn.toNat ≤ 8
  lane_eq_zero : ∀ k : Fin 8, r.pkn.toNat ≤ k.val → lane r.pk k.val = 0
  uqn_le : r.uqn.toNat ≤ 8
  uq_lt : r.uq.toNat < 2 ^ (8 * r.uqn.toNat)
  flt_le : r.flt.toNat ≤ 3

theorem registersOk_iff_legal {s : State} : RegistersOk s ↔ s.toRegisters.Legal :=
  ⟨fun ⟨⟨hpkn, hpk⟩, ⟨huqn, huq⟩, hflt⟩ => ⟨hpkn, hpk, huqn, huq, hflt⟩,
    fun h => ⟨⟨h.pkn_le, h.lane_eq_zero⟩, ⟨h.uqn_le, h.uq_lt⟩, h.flt_le⟩⟩

/-- Zero lanes from `n` on bound a block by its first `n` bytes (R28 (b)). -/
theorem toNat_lt_of_lanes_eq_zero {v : Block} {n : Nat} (h : ∀ k : Fin 8, n ≤ k.val → lane v k.val = 0) :
    v.toNat < 2 ^ (8 * n) := by
  refine Nat.lt_pow_two_of_testBit _ fun i hi => ?_
  rw [BitVec.testBit_toNat]
  by_cases hlt : i < 64
  · have hlane : lane v (i / 8) = 0 := h ⟨i / 8, by omega⟩ (show n ≤ i / 8 by omega)
    have hbit : (lane v (i / 8)).getLsbD (i % 8) = false := by rw [hlane]; exact BitVec.getLsbD_zero
    rw [getLsbD_lane, Nat.div_add_mod] at hbit
    simpa [Nat.mod_lt i (by decide : 0 < 8)] using hbit
  · exact BitVec.getLsbD_of_ge _ _ (by omega)

/-- A block of no bytes is zero (R28 (b), (d)). -/
theorem eq_zero_of_toNat_lt {v : Block} {n : BitVec 4} (h : v.toNat < 2 ^ (8 * n.toNat)) (hn : n = 0) : v = 0 := by
  subst hn
  exact BitVec.eq_of_toNat_eq (Nat.lt_one_iff.1 h)

/-- A block without its lowest byte has one byte fewer. -/
theorem toNat_shiftRight_lt {v : Block} {n : Nat} (h : v.toNat < 2 ^ (8 * (n + 1))) : (v >>> 8).toNat < 2 ^ (8 * n) := by
  rw [BitVec.toNat_ushiftRight, Nat.shiftRight_eq_div_pow]
  refine Nat.div_lt_of_lt_mul ?_
  rwa [← Nat.pow_add, Nat.add_comm]

theorem recordFault_toNat_le {flt : BitVec 3} (h : flt.toNat ≤ 3) (c : FaultCode) : (recordFault flt c).toNat ≤ 3 := by
  unfold recordFault
  split
  · cases c <;> decide
  · exact h

namespace Registers.Legal

theorem reset : Registers.reset.Legal := registersOk_iff_legal.1 (by decide : RegistersOk State.reset)

variable {r : Registers}

theorem pk_lt (h : r.Legal) : r.pk.toNat < 2 ^ (8 * r.pkn.toNat) := toNat_lt_of_lanes_eq_zero h.lane_eq_zero

theorem setChain (h : r.Legal) (iv : Block) (idx : BitVec 32) : (r.setChain iv idx).Legal := { h with }

/-- Writing the first free lane leaves the lanes above it zero (R85). -/
theorem push (h : r.Legal) (b : Byte) (hlt : r.pkn < 8) :
    (r.setPacker (setLane r.pk r.pkn.toNat b) (r.pkn + 1)).Legal := by
  have hn : r.pkn.toNat < 8 := hlt
  have hsucc : (r.pkn + 1).toNat = r.pkn.toNat + 1 := by bv_omega
  refine { h with pkn_le := ?_, lane_eq_zero := fun k hk => ?_ }
  · exact hsucc.trans_le hn
  · have hk' : r.pkn.toNat + 1 ≤ k.val := hsucc.symm.trans_le hk
    rw [Registers.setPacker_pk, lane_setLane _ _ _ _ hn k.isLt, if_neg (by omega)]
    exact h.lane_eq_zero k (by omega)

theorem emptyPacker (h : r.Legal) : (r.setPacker 0 0).Legal :=
  { h with pkn_le := Nat.zero_le 8, lane_eq_zero := fun _ _ => BitVec.extractLsb'_zero }

theorem load (h : r.Legal) (b : Block) : (r.setUnpacker b 8).Legal :=
  { h with uqn_le := Nat.le_refl 8, uq_lt := b.isLt }

/-- Shifting the read byte out keeps the bound on the bytes still to be read (R88). -/
theorem pop (h : r.Legal) (h0 : r.uqn ≠ 0) : (r.setUnpacker (r.uq >>> 8) (r.uqn - 1)).Legal := by
  have hpred : r.uqn.toNat = (r.uqn - 1).toNat + 1 := by bv_omega
  refine { h with uqn_le := ?_, uq_lt := toNat_shiftRight_lt (hpred ▸ h.uq_lt) }
  have := h.uqn_le
  show (r.uqn - 1).toNat ≤ 8
  omega

theorem setFlt (h : r.Legal) {flt : BitVec 3} (hflt : flt.toNat ≤ 3) : (r.setFlt flt).Legal := { h with flt_le := hflt }

end Registers.Legal

/-! ### Sound answers -/

/-- What every answer to legal registers `r` is: legal registers, a response CORE can give (R54, R55), and a fault code
where FLT comes to record a fault (R119). -/
structure Answer.Sound (r : Registers) (a : Answer) : Prop where
  legal : a.regs.Legal
  rsp_ok : ResponseOk a.rsp
  flt_eq_zero : a.rsp.code = 0 → r.flt = 0 → a.regs.flt = 0

section sound
variable {r : Registers}

theorem FaultCode.bits_ne_zero (c : FaultCode) : c.bits ≠ 0 := by cases c <;> decide

theorem responseOk_fault (c : FaultCode) : ResponseOk ⟨c.bits, c.cnt, 0⟩ := by cases c <;> decide

/-- A fault's answer is sound. -/
theorem raise_sound (hr : r.Legal) (c : FaultCode) : Answer.Sound r (r.raise c) where
  legal := hr.setFlt (recordFault_toNat_le hr.flt_le c)
  rsp_ok := responseOk_fault c
  flt_eq_zero := fun hcode => absurd hcode c.bits_ne_zero

/-- The answer of a command that does not fault is sound when it leaves legal registers, counts at most 8 and records
no fault. -/
theorem respond_sound {r' : Registers} (hr' : r'.Legal) {n : BitVec 4} (hn : n.toNat ≤ 8) (d : Block)
    (hflt : r.flt = 0 → r'.flt = 0) : Answer.Sound r (r'.respond 0 n d) where
  legal := hr'
  rsp_ok := ⟨Nat.zero_le 3, hn, fun hcode => absurd rfl hcode⟩
  flt_eq_zero := fun _ => hflt

theorem commandAnswer_sound {i : Instr} {a : Answer} (hr : r.Legal) (h : commandAnswer i r = .ok a) :
    Answer.Sound r a := by
  have h0 : (0 : BitVec 4).toNat ≤ 8 := Nat.zero_le 8
  cases i with
  | putb b =>
    rcases pkn_cases r.pkn with hfull | hlt | hbeyond
    · cases (putbAnswer_full r b hfull).symm.trans h
      exact raise_sound hr .packOverflow
    · cases (putbAnswer_push r b hlt).symm.trans h
      exact respond_sound (hr.push b hlt) (hr.push b hlt).pkn_le _ id
    · cases (putbAnswer_beyond r b hbeyond).symm.trans h
  | getb =>
    cases h
    by_cases hempty : r.uqn = 0
    · rw [getbAnswer_empty r hempty]
      exact raise_sound hr .unpackEmpty
    · rw [getbAnswer_pop r hempty]
      exact respond_sound (hr.pop hempty) (hr.pop hempty).uqn_le _ id
  | pack => cases h; exact respond_sound hr.emptyPacker hr.pkn_le _ id
  | unpk b => cases h; exact respond_sound (hr.load b) (hr.load b).uqn_le _ id
  | start => cases h; exact respond_sound (hr.setChain _ _) h0 _ id
  | enc p => cases h; exact respond_sound (hr.setChain _ _) h0 _ id
  | dec c => cases h; exact respond_sound (hr.setChain _ _) h0 _ id
  | clrf => cases h; exact respond_sound (hr.setFlt (flt := 0) (Nat.zero_le 3)) h0 _ fun _ => rfl
  | encb b => cases h; exact respond_sound hr h0 _ id
  | decb b => cases h; exact respond_sound hr h0 _ id
  | stat => cases h; exact respond_sound hr h0 _ id

theorem wordAnswer_sound {w : CmdWord} {a : Answer} (hr : r.Legal) (h : wordAnswer w r = .ok a) :
    Answer.Sound r a := by
  cases hd : decode w with
  | ok i => exact commandAnswer_sound hr (by simpa only [wordAnswer, hd] using h)
  | error e =>
    simp only [wordAnswer, hd] at h
    cases h
    exact raise_sound hr .illegalOp

end sound

/-! ### What a step leaves -/

/-- Everything a step that answers a next state can leave: the state itself, or the host's reset, a delivery or a word's
answer performed with the rest of the actions to come. -/
theorem step_next_cases {s t : State} (h : step s = .next t) :
    t = s ∨ ∃ rest, t = (s.withInputs rest).assertReset ∨ t = (s.withInputs rest).deliver ∨
      ∃ w a, wordAnswer w s.toRegisters = .ok a ∧ t = (s.withInputs rest).perform a := by
  rcases step_cases s with ⟨_, hs⟩ | ⟨x, rest, _, hs⟩
  · exact .inl (by cases hs.symm.trans h; rfl)
  · have hx : performAction x (s.withInputs rest) = .next t := hs.symm.trans h
    refine .inr ⟨rest, ?_⟩
    cases x with
    | reset => cases hx; exact .inl rfl
    | take => cases hx; exact .inr (.inl rfl)
    | command w =>
      have hw := (acceptWord_eq_performOr_wordAnswer (s.withInputs rest) w).symm.trans hx
      obtain ⟨a, ha, ht⟩ := (performOr_eq_next_iff _).1 hw
      exact .inr (.inr ⟨w, a, ha, ht.symm⟩)

theorem step_legal {s t : State} (hs : s.toRegisters.Legal) (h : step s = .next t) : t.toRegisters.Legal := by
  rcases step_next_cases h with rfl | ⟨rest, rfl | rfl | ⟨w, a, ha, rfl⟩⟩
  · exact hs
  · exact Registers.Legal.reset
  · rw [State.deliver_toRegisters]
    exact hs
  · exact (wordAnswer_sound hs ha).legal

section invariant
variable {s : State}

/-- The invariant depends on the registers, the responses given, delivered or not, and the fault mark. -/
theorem inv_congr {t : State} (hregs : t.toRegisters = s.toRegisters)
    (hlog : t.received ++ t.pending = s.received ++ s.pending) (hfaulted : t.faulted = s.faulted) (hs : Inv s) :
    Inv t := by
  obtain ⟨hok, hrsp, hflt, hcode⟩ := hs
  refine ⟨?_, ?_, ?_, ?_⟩
  · exact registersOk_iff_legal.2 (hregs ▸ registersOk_iff_legal.1 hok)
  · rw [ResponsesOk, hlog]; exact hrsp
  · rw [hregs, hfaulted]; exact hflt
  · rw [hlog, hfaulted]; exact hcode

theorem inv_assertReset (hs : Inv s) : Inv s.assertReset := by
  obtain ⟨_, hrsp, _, hcode⟩ := hs
  have hmem {x : Response} (hx : x ∈ s.assertReset.received ++ s.assertReset.pending) : x ∈ s.received ++ s.pending :=
    List.mem_append_left _ (by simpa using hx)
  exact ⟨registersOk_iff_legal.2 Registers.Legal.reset, fun x hx => hrsp x (hmem hx), fun hflt => absurd rfl hflt,
    fun x hx => hcode x (hmem hx)⟩

/-- The responses given after a command are those given before it and its own. -/
theorem mem_log_perform {a : Answer} {x : Response} :
    x ∈ (s.perform a).received ++ (s.perform a).pending ↔ x ∈ s.received ++ s.pending ∨ x = a.rsp := by
  rw [State.perform_received, State.perform_pending, ← List.append_assoc, List.mem_append, List.mem_singleton]

theorem faulted_perform_iff {a : Answer} : (s.perform a).faulted = true ↔ a.rsp.code ≠ 0 ∨ s.faulted = true := by
  simp

theorem inv_perform {a : Answer} (hs : Inv s) (ha : Answer.Sound s.toRegisters a) : Inv (s.perform a) := by
  obtain ⟨_, hrsp, hflt, hcode⟩ := hs
  refine ⟨registersOk_iff_legal.2 ha.legal, fun x hx => ?_, fun hne => ?_, fun x hx hne => ?_⟩
  · rcases mem_log_perform.1 hx with hx | rfl
    · exact hrsp x hx
    · exact ha.rsp_ok
  · refine faulted_perform_iff.2 (or_iff_not_imp_left.2 fun hzero => hflt fun h0 => hne ?_)
    exact ha.flt_eq_zero (not_not.1 hzero) h0
  · rcases mem_log_perform.1 hx with hx | rfl
    · exact faulted_perform_iff.2 (.inr (hcode x hx hne))
    · exact faulted_perform_iff.2 (.inl hne)

end invariant

/-! ### The access table -/

section access
variable {s s' : State}

theorem answers_perform (a : Answer) : Answers s (s.perform a) a.rsp := ⟨rfl, rfl, rfl⟩

/-- The columns of the access table that are not marked `w` for a command (R29), and no fault but from PUTB or GETB. -/
theorem commandAnswer_frame {i : Instr} {r : Registers} {a : Answer} (h : commandAnswer i r = .ok a) :
    ((∀ p, i ≠ .enc p) → (∀ c, i ≠ .dec c) → i ≠ .start → a.regs.iv = r.iv ∧ a.regs.idx = r.idx) ∧
    ((∀ b, i ≠ .putb b) → i ≠ .pack → a.regs.pk = r.pk ∧ a.regs.pkn = r.pkn) ∧
    ((∀ b, i ≠ .unpk b) → i ≠ .getb → a.regs.uq = r.uq ∧ a.regs.uqn = r.uqn) ∧
    ((∀ b, i ≠ .putb b) → i ≠ .getb → i ≠ .clrf → a.regs.flt = r.flt) ∧
    ((∀ b, i ≠ .putb b) → i ≠ .getb → a.rsp.code = 0) := by
  rcases commandAnswer_cases r h with ⟨_, rfl, rfl⟩ | ⟨_, rfl, rfl⟩ | ⟨_, rfl, _, rfl⟩ | ⟨_, rfl, _, rfl⟩ |
    ⟨rfl, rfl⟩ | ⟨_, rfl, rfl⟩ | ⟨rfl, _, rfl⟩ | ⟨rfl, _, rfl⟩ | ⟨rfl, rfl⟩ | ⟨_, rfl, rfl⟩ | ⟨_, rfl, rfl⟩ |
    ⟨rfl, rfl⟩ | ⟨rfl, rfl⟩
  all_goals simp

/-- A command's answer is made of the registers the access table marks `r` for it (R29). -/
theorem commandAnswer_of_readsAgree {i : Instr} {a : Answer} (hr : readsAgree i s s')
    (h : commandAnswer i s.toRegisters = .ok a) :
    ∃ a', commandAnswer i s'.toRegisters = .ok a' ∧ a'.rsp = a.rsp ∧ writesAgree i (s.perform a) (s'.perform a') := by
  cases i with
  | encb b => cases h; exact ⟨_, rfl, rfl, trivial⟩
  | decb b => cases h; exact ⟨_, rfl, rfl, trivial⟩
  | putb b =>
    obtain ⟨hpk, hpkn⟩ := hr
    rcases pkn_cases s.pkn with hfull | hlt | hbeyond
    · cases (putbAnswer_full s.toRegisters b hfull).symm.trans h
      exact ⟨_, putbAnswer_full s'.toRegisters b (hpkn ▸ hfull), rfl, hpk, hpkn⟩
    · cases (putbAnswer_push s.toRegisters b hlt).symm.trans h
      refine ⟨_, putbAnswer_push s'.toRegisters b (hpkn ▸ hlt), ?_⟩
      simp [writesAgree, hpk, hpkn]
    · cases (putbAnswer_beyond s.toRegisters b hbeyond).symm.trans h
  | pack =>
    obtain ⟨hpk, hpkn⟩ := hr
    cases h
    exact ⟨_, rfl, by simp [packAnswer, hpk, hpkn], rfl, rfl⟩
  | unpk b => cases h; exact ⟨_, rfl, rfl, rfl, rfl⟩
  | getb =>
    obtain ⟨huq, huqn⟩ := hr
    cases h
    refine ⟨_, rfl, ?_⟩
    by_cases hempty : s.uqn = 0
    · rw [getbAnswer_empty s.toRegisters hempty, getbAnswer_empty s'.toRegisters (huqn ▸ hempty)]
      exact ⟨rfl, huq, huqn⟩
    · rw [getbAnswer_pop s.toRegisters hempty, getbAnswer_pop s'.toRegisters (huqn ▸ hempty)]
      simp [writesAgree, huq, huqn]
  | start => cases h; exact ⟨_, rfl, rfl, rfl, rfl⟩
  | enc p =>
    obtain ⟨hiv, hidx⟩ := hr
    cases h
    exact ⟨_, rfl, by simp [encAnswer, hiv], by simp [writesAgree, encAnswer, hiv, hidx]⟩
  | dec c =>
    obtain ⟨hiv, hidx⟩ := hr
    cases h
    exact ⟨_, rfl, by simp [decAnswer, hiv], by simp [writesAgree, decAnswer, hidx]⟩
  | stat =>
    obtain ⟨hidx, hpkn, huqn, hflt⟩ := hr
    cases h
    exact ⟨_, rfl, by simp [statAnswer, statusWord, hidx, hpkn, huqn, hflt], trivial⟩
  | clrf => cases h; exact ⟨_, rfl, rfl, rfl⟩

end access

/-! ### The obligations of the state -/

/-- Settles O49: the host's reset and a delivery keep legal registers, and so does every word's answer, which is
sound. -/
theorem stepKeepsRegistersLegal : Obligations.StepKeepsRegistersLegal := by
  refine ⟨registersOk_iff_legal.2 Registers.Legal.reset, fun s t hs ht => ?_⟩
  have hlegal : t.toRegisters.Legal := step_legal (registersOk_iff_legal.1 hs) ht
  exact ⟨registersOk_iff_legal.2 hlegal, hlegal.pk_lt, eq_zero_of_toNat_lt hlegal.pk_lt,
    eq_zero_of_toNat_lt hlegal.uq_lt⟩

/-- Settles O50, by what a step can leave: a sound answer performed, a delivery or the host's reset. -/
theorem stepKeepsTheInvariant : Obligations.StepKeepsTheInvariant := by
  intro s t hs ht
  rcases step_next_cases ht with rfl | ⟨rest, rfl | rfl | ⟨w, a, ha, rfl⟩⟩
  · exact hs
  · exact inv_assertReset (s := s.withInputs rest) hs
  · exact inv_congr (s := s) (State.deliver_toRegisters _) (State.deliver_log _) (State.deliver_faulted _) hs
  · have hlegal : s.toRegisters.Legal := registersOk_iff_legal.1 hs.left
    exact inv_perform (s := s.withInputs rest) hs (wordAnswer_sound hlegal ha)

/-- Settles O53: a command that gives a next state performs an answer of its registers, and that answer keeps the
columns not marked written. -/
theorem commandsWriteOnlyTheirRegisters : Obligations.CommandsWriteOnlyTheirRegisters := by
  intro i s t ht
  obtain ⟨a, ha, rfl⟩ := exec_next s t ht
  obtain ⟨hchain, hpacker, hunpacker, hflt, hcode⟩ := commandAnswer_frame ha
  refine ⟨⟨a.rsp, answers_perform a⟩, hchain, hpacker, hunpacker, hflt, fun hputb hgetb => ?_⟩
  simp [hcode hputb hgetb]

/-- Settles O54: equal values in the registers read give equal responses and equal values in the registers written. -/
theorem commandsReadOnlyTheirRegisters : Obligations.CommandsReadOnlyTheirRegisters := by
  intro i s s' t hr ht
  obtain ⟨a, ha, rfl⟩ := exec_next s t ht
  obtain ⟨a', ha', hrsp, hwrites⟩ := commandAnswer_of_readsAgree hr ha
  exact ⟨s'.perform a', a.rsp, exec_of_answer s' ha', answers_perform a, hrsp ▸ answers_perform a', hwrites⟩

/-- Settles O46: the registers are legal, and no response has been given. -/
theorem resetMeetsTheInvariant : Obligations.ResetMeetsTheInvariant :=
  ⟨registersOk_iff_legal.2 Registers.Legal.reset, fun _ hx => absurd hx List.not_mem_nil, fun hflt => absurd rfl hflt,
    fun _ hx => absurd hx List.not_mem_nil⟩

end Sys2Proof.Machine

/-! SUPPORT. The family of 20_memory.md: a command is idempotent where its answer is also its answer to the registers
that answer leaves (R42). -/

namespace Sys2Proof.Machine

/-! ### Idempotency as a fixed answer -/

section idempotency
variable {s : State}

theorem rsp_eq_of_answers_perform {a : Answer} {x : Response} (h : Answers s (s.perform a) x) : a.rsp = x := by
  obtain ⟨hpending, _⟩ := h
  simpa using hpending

/-- Twice the same response and the registers of the first time: the second answer is the first one. -/
theorem idempotentAt_iff {i : Instr} :
    IdempotentAt i s ↔ ∃ a, commandAnswer i s.toRegisters = .ok a ∧ commandAnswer i a.regs = .ok a := by
  constructor
  · rintro ⟨t, u, x, ht, hu, hrsp, hrsp', hregs⟩
    obtain ⟨a, ha, rfl⟩ := exec_next s t ht
    obtain ⟨a', ha', rfl⟩ := exec_next (s.perform a) u hu
    have hrsps : a'.rsp = a.rsp := (rsp_eq_of_answers_perform hrsp').trans (rsp_eq_of_answers_perform hrsp).symm
    have hsame : a' = a := congrArg₂ Answer.mk hregs.symm hrsps
    exact ⟨a, ha, hsame ▸ ha'⟩
  · rintro ⟨a, ha, hfixed⟩
    exact ⟨s.perform a, (s.perform a).perform a, a.rsp, exec_of_answer s ha, exec_of_answer (s.perform a) hfixed,
      answers_perform a, answers_perform a, rfl⟩

end idempotency

/-! ### Which answers are fixed -/

theorem recordFault_ne_zero (flt : BitVec 3) (c : FaultCode) : recordFault flt c ≠ 0 := by
  unfold recordFault
  split
  · exact c.bits_ne_zero
  · assumption

/-- A fault recorded again leaves the first record (R119). -/
theorem recordFault_recordFault (flt : BitVec 3) (c : FaultCode) :
    recordFault (recordFault flt c) c = recordFault flt c := if_neg (recordFault_ne_zero flt c)

theorem raise_raise_regs (r : Registers) (c : FaultCode) : (r.raise c).regs.raise c = r.raise c := by
  simp [Registers.raise, Registers.setFlt, Registers.respond, recordFault_recordFault]

section fixed
variable {a : Answer}

/-- ENC and DEC always count a block (R97, R98), so no answer to them is fixed. -/
theorem commandAnswer_ne_self_of_chain {i : Instr} (hi : (∃ p, i = .enc p) ∨ ∃ c, i = .dec c) :
    commandAnswer i a.regs ≠ .ok a := by
  intro h
  have hidx : a.regs.idx + 1 = a.regs.idx := by
    rcases hi with ⟨p, rfl⟩ | ⟨c, rfl⟩
    · exact congrArg (·.regs.idx) (Except.ok.inj h)
    · exact congrArg (·.regs.idx) (Except.ok.inj h)
  bv_omega

/-- PACK leaves an empty packer, so a fixed answer counts no byte (R86). -/
theorem cnt_eq_zero_of_pack_fixed (h : commandAnswer .pack a.regs = .ok a) : a.rsp.cnt = 0 := by
  have ha : packAnswer a.regs = a := Except.ok.inj h
  have hempty : a.regs.pkn = 0 := (congrArg (·.regs.pkn) ha).symm
  have hcnt : a.rsp.cnt = a.regs.pkn := (congrArg (·.rsp.cnt) ha).symm
  exact hcnt.trans hempty

/-- A GETB that pops lowers UQN, so a fixed answer to GETB is a fault (R88). -/
theorem code_ne_zero_of_getb_fixed (h : commandAnswer .getb a.regs = .ok a) : a.rsp.code ≠ 0 := by
  have ha : getbAnswer a.regs = a := Except.ok.inj h
  by_cases hempty : a.regs.uqn = 0
  · rw [← ha, getbAnswer_empty _ hempty]
    exact FaultCode.bits_ne_zero .unpackEmpty
  · rw [getbAnswer_pop _ hempty] at ha
    have huqn : a.regs.uqn - 1 = a.regs.uqn := congrArg (·.regs.uqn) ha
    bv_omega

/-- A PUTB that pushes raises PKN, so a fixed answer to PUTB is a fault (R85). -/
theorem code_ne_zero_of_putb_fixed {b : Byte} (h : commandAnswer (.putb b) a.regs = .ok a) : a.rsp.code ≠ 0 := by
  rcases pkn_cases a.regs.pkn with hfull | hlt | hbeyond
  · have ha : a.regs.raise .packOverflow = a := Except.ok.inj ((putbAnswer_full a.regs b hfull).symm.trans h)
    rw [← ha]
    exact FaultCode.bits_ne_zero .packOverflow
  · have ha := Except.ok.inj ((putbAnswer_push a.regs b hlt).symm.trans h)
    have hpkn : a.regs.pkn + 1 = a.regs.pkn := congrArg (·.regs.pkn) ha
    bv_omega
  · cases (putbAnswer_beyond a.regs b hbeyond).symm.trans h

end fixed

/-! ### The destructive commands -/

section destructive
variable {s : State}

/-- An empty packer is zero in a legal state, so PACK answers `(0, 0, 0)` each time (R28 (b), R86). -/
theorem idempotentAt_pack_iff (hs : s.toRegisters.Legal) : IdempotentAt .pack s ↔ s.pkn = 0 := by
  rw [idempotentAt_iff]
  constructor
  · rintro ⟨a, ha, hfixed⟩
    have hcnt : s.pkn = a.rsp.cnt := congrArg (·.rsp.cnt) (Except.ok.inj ha)
    exact hcnt.trans (cnt_eq_zero_of_pack_fixed hfixed)
  · intro hpkn
    have hpk : s.pk = 0 := eq_zero_of_toNat_lt hs.pk_lt hpkn
    have hanswer : packAnswer s.toRegisters = (s.toRegisters.setPacker 0 0).respond 0 0 0 := by
      rw [packAnswer, hpkn, hpk]
    exact ⟨_, congrArg Except.ok hanswer, rfl⟩

theorem idempotentAt_getb_iff : IdempotentAt .getb s ↔ s.uqn = 0 := by
  rw [idempotentAt_iff]
  constructor
  · rintro ⟨a, ha, hfixed⟩
    by_contra hne
    have hpop := (getbAnswer_pop s.toRegisters hne).symm.trans (Except.ok.inj ha)
    have hcode : a.rsp.code = 0 := (congrArg (·.rsp.code) hpop).symm
    exact code_ne_zero_of_getb_fixed hfixed hcode
  · intro hempty
    refine ⟨s.toRegisters.raise .unpackEmpty, congrArg Except.ok (getbAnswer_empty _ hempty), congrArg Except.ok ?_⟩
    exact (getbAnswer_empty (s.toRegisters.raise .unpackEmpty).regs hempty).trans (raise_raise_regs _ _)

theorem idempotentAt_putb_iff {b : Byte} : IdempotentAt (.putb b) s ↔ s.pkn = 8 := by
  rw [idempotentAt_iff]
  constructor
  · rintro ⟨a, ha, hfixed⟩
    rcases pkn_cases s.pkn with hfull | hlt | hbeyond
    · exact hfull
    · have hpush := Except.ok.inj ((putbAnswer_push s.toRegisters b hlt).symm.trans ha)
      have hcode : a.rsp.code = 0 := (congrArg (·.rsp.code) hpush).symm
      exact absurd hcode (code_ne_zero_of_putb_fixed hfixed)
    · cases (putbAnswer_beyond s.toRegisters b hbeyond).symm.trans ha
  · intro hfull
    refine ⟨s.toRegisters.raise .packOverflow, putbAnswer_full _ b hfull, ?_⟩
    exact (putbAnswer_full (s.toRegisters.raise .packOverflow).regs b hfull).trans
      (congrArg Except.ok (raise_raise_regs _ _))

theorem not_idempotentAt_of_chain {i : Instr} (hi : (∃ p, i = .enc p) ∨ ∃ c, i = .dec c) : ¬ IdempotentAt i s := by
  rw [idempotentAt_iff]
  rintro ⟨a, _, hfixed⟩
  exact commandAnswer_ne_self_of_chain hi hfixed

end destructive

/-! ### The obligation -/

/-- Settles O55: of the six commands that are always idempotent the answer is fixed by definition; of the five
destructive ones it is fixed exactly where the table says. -/
theorem idempotencyTable : Obligations.IdempotencyTable := by
  intro s hs
  have hfixed (i : Instr) {a : Answer} (ha : commandAnswer i s.toRegisters = .ok a)
      (ha' : commandAnswer i a.regs = .ok a) : IdempotentAt i s := idempotentAt_iff.2 ⟨a, ha, ha'⟩
  refine ⟨fun b => hfixed (.encb b) rfl rfl, fun b => hfixed (.decb b) rfl rfl, hfixed .stat rfl rfl,
    hfixed .clrf rfl rfl, hfixed .start rfl rfl, fun b => hfixed (.unpk b) rfl rfl,
    idempotentAt_pack_iff (registersOk_iff_legal.1 hs), idempotentAt_getb_iff, fun _ => idempotentAt_putb_iff,
    fun p => not_idempotentAt_of_chain (.inl ⟨p, rfl⟩), fun c => not_idempotentAt_of_chain (.inr ⟨c, rfl⟩)⟩

end Sys2Proof.Machine

/-! SUPPORT. The family of 30_encoding.md: encoder and decoder agree (R47 to R51), response words have their fields
(R54 to R57), every command is answered once and in order (R52, R53), and lines expand to single commands (R61). -/

namespace Sys2Proof.Machine

/-! ### The rows of the opcode map -/

section encoding
variable {w : CmdWord} {i : Instr} {r : OpRow}

/-- The byte operand of format B is the operand field under its mask (R48). -/
theorem setWidth_byteOf (x : Block) : (byteOf x).setWidth 64 = x &&& Format.usedBits .b := by
  apply BitVec.eq_of_toNat_eq
  have hmask : (Format.usedBits .b).toNat = 2 ^ 8 - 1 := rfl
  rw [BitVec.toNat_and, hmask, Nat.and_two_pow_sub_one_eq_mod]
  simp only [byteOf, BitVec.toNat_setWidth, BitVec.extractLsb'_toNat, Nat.shiftRight_zero]
  omega

/-- A row builds a command of its own opcode whose canonical operand is the operand bits the row's format uses (R48,
R50). -/
theorem op_operand_build (hr : r ∈ opcodeMap) (x : Block) :
    (r.build x).op = r.op ∧ (r.build x).operand = x &&& r.format.usedBits := by
  have hblock : x = x &&& Format.usedBits .q := (BitVec.and_allOnes (x := x)).symm
  have hnone : 0 = x &&& Format.usedBits .n := BitVec.and_zero.symm
  simp only [opcodeMap, List.mem_cons, List.not_mem_nil, or_false] at hr
  rcases hr with rfl | rfl | rfl | rfl | rfl | rfl | rfl | rfl | rfl | rfl | rfl
  exacts [⟨rfl, hblock⟩, ⟨rfl, hblock⟩, ⟨rfl, setWidth_byteOf x⟩, ⟨rfl, hnone⟩, ⟨rfl, hblock⟩, ⟨rfl, hnone⟩,
    ⟨rfl, hnone⟩, ⟨rfl, hblock⟩, ⟨rfl, hblock⟩, ⟨rfl, hnone⟩, ⟨rfl, hnone⟩]

theorem encode_build (hr : r ∈ opcodeMap) (x : Block) :
    encode (r.build x) = packWord r.op (x &&& r.format.usedBits) := by
  obtain ⟨hop, hoperand⟩ := op_operand_build hr x
  rw [encode, hop, hoperand]

/-- A command's opcode selects the row that reads the command back from its canonical operand. -/
theorem exists_row (i : Instr) : Laws.OpcodeRow.Statement i := by
  cases i with
  | encb b => exact Laws.OpcodeRow.encb b
  | decb b => exact Laws.OpcodeRow.decb b
  | putb b => exact Laws.OpcodeRow.putb b
  | pack => exact Laws.OpcodeRow.pack
  | unpk b => exact Laws.OpcodeRow.unpk b
  | getb => exact Laws.OpcodeRow.getb
  | start => exact Laws.OpcodeRow.start
  | enc p => exact Laws.OpcodeRow.enc p
  | dec c => exact Laws.OpcodeRow.dec c
  | stat => exact Laws.OpcodeRow.stat
  | clrf => exact Laws.OpcodeRow.clrf

/-- The canonical operand has no bit its format does not use. -/
theorem operand_eq_and_usedBits (h : rowOf i.op = some r) : i.operand = i.operand &&& r.format.usedBits := by
  obtain ⟨r', hr', hbuild⟩ := exists_row i
  cases hr'.symm.trans h
  obtain ⟨_, hoperand⟩ := op_operand_build (rowOf_eq_some h).left i.operand
  rwa [hbuild] at hoperand

/-! ### Decoding and encoding -/

theorem decode_encode (i : Instr) : decode (encode i) = .ok i := by
  obtain ⟨r, hrow, hbuild⟩ := exists_row i
  have h : rowOf (opOf (encode i)) = some r := by rwa [encode, opOf_packWord]
  rw [decode_of_row h, encode, operandOf_packWord, hbuild]

theorem encode_injective : Function.Injective encode := fun i j h =>
  Except.ok.inj ((decode_encode i).symm.trans ((congrArg decode h).trans (decode_encode j)))

/-- A row reads no operand bit its format does not use (R48). -/
theorem build_congr (hr : r ∈ opcodeMap) {x y : Block} (h : x &&& r.format.usedBits = y &&& r.format.usedBits) :
    r.build x = r.build y :=
  encode_injective (by rw [encode_build hr, encode_build hr, h])

/-- A word that decodes has the opcode of a row, and that row made the command. -/
theorem decode_eq_ok_iff : decode w = .ok i ↔ ∃ r, rowOf (opOf w) = some r ∧ r.build (operandOf w) = i := by
  cases h : rowOf (opOf w) with
  | some r => simp [decode_of_row h]
  | none => simp [decode_of_no_row h]

theorem canonicalize_of_row (h : rowOf (opOf w) = some r) :
    canonicalize w = packWord (opOf w) (operandOf w &&& r.format.usedBits) := by
  simp [canonicalize, h]

theorem canonical_iff_of_row (h : rowOf (opOf w) = some r) : w.canonical = true ↔ canonicalize w = w := by
  simp [CmdWord.canonical, h]

theorem encode_eq_canonicalize (h : decode w = .ok i) : encode i = canonicalize w := by
  obtain ⟨r, hrow, rfl⟩ := decode_eq_ok_iff.1 h
  obtain ⟨hr, hop⟩ := rowOf_eq_some hrow
  rw [encode_build hr, canonicalize_of_row hrow, hop]

theorem canonical_iff_encode_eq (h : decode w = .ok i) : w.canonical = true ↔ encode i = w := by
  obtain ⟨r, hrow, _⟩ := decode_eq_ok_iff.1 h
  rw [encode_eq_canonicalize h, canonical_iff_of_row hrow]

theorem mem_definedOps_iff {op : Byte} : op ∈ definedOps ↔ ∃ r, rowOf op = some r := by
  rw [← Option.ne_none_iff_exists', ne_eq, rowOf_eq_none_iff, not_not]
  rfl

/-- The numbers of the defined opcodes are the eleven. -/
theorem filter_definedOps_perm :
    ((List.range 256).filter fun n => definedOps.contains (BitVec.ofNat 8 n)).Perm (definedOps.map BitVec.toNat) := by
  refine (List.perm_ext_iff_of_nodup (List.nodup_range.filter _) (by decide)).2 fun n => ?_
  simp only [List.mem_filter, List.mem_range, List.contains_iff_mem, List.mem_map]
  constructor
  · rintro ⟨hlt, hdef⟩
    exact ⟨BitVec.ofNat 8 n, hdef, (BitVec.toNat_ofNat n 8).trans (Nat.mod_eq_of_lt hlt)⟩
  · rintro ⟨op, hdef, rfl⟩
    exact ⟨op.isLt, by rwa [BitVec.ofNat_toNat, BitVec.setWidth_eq]⟩

/-- Of 256 opcodes 11 are defined (R50, R57). -/
theorem length_undefinedOps :
    ((List.range 256).filter fun n => !definedOps.contains (BitVec.ofNat 8 n)).length = 245 := by
  have hdefined : ((List.range 256).filter fun n => definedOps.contains (BitVec.ofNat 8 n)).length = 11 :=
    filter_definedOps_perm.length_eq
  have hall := List.length_eq_length_filter_add (l := List.range 256) fun n => definedOps.contains (BitVec.ofNat 8 n)
  rw [hdefined, List.length_range] at hall
  omega

/-- Words that decode alike are executed alike. -/
theorem acceptWord_congr {w' : CmdWord} (h : decode w = decode w') (s : State) : acceptWord w s = acceptWord w' s := by
  unfold acceptWord
  rw [h]

/-- Operand fields that agree on the bits a format uses agree under its mask. -/
theorem and_usedBits_eq_of_agree {f : Format} {x y : Block}
    (h : f = .n ∨ (f = .b ∧ x.extractLsb' 0 8 = y.extractLsb' 0 8) ∨ (f = .q ∧ x = y)) :
    x &&& f.usedBits = y &&& f.usedBits := by
  rcases h with rfl | ⟨rfl, hbyte⟩ | ⟨rfl, rfl⟩
  · exact BitVec.and_zero.trans BitVec.and_zero.symm
  · rw [← setWidth_byteOf, ← setWidth_byteOf]
    exact congrArg (BitVec.setWidth 64) hbyte
  · rfl

end encoding

/-! ### The response word -/

section response
variable (x : Response)

theorem statusByte_eq : x.statusByte = 0#1 ++ x.code ++ x.cnt := BitVec.extractLsb'_append_eq_left

theorem toWord_data : x.toWord.extractLsb' 0 64 = x.data := BitVec.extractLsb'_append_eq_right

theorem toWord_cnt : x.toWord.extractLsb' 64 4 = x.cnt :=
  calc x.toWord.extractLsb' 64 4 = (0#1 ++ x.code ++ x.cnt).extractLsb' 0 4 :=
        BitVec.extractLsb'_append_eq_of_le (Nat.le_refl 64)
    _ = x.cnt := BitVec.extractLsb'_append_eq_right

theorem toWord_code : x.toWord.extractLsb' 68 3 = x.code :=
  calc x.toWord.extractLsb' 68 3 = (0#1 ++ x.code ++ x.cnt).extractLsb' 4 3 :=
        BitVec.extractLsb'_append_eq_of_le (by decide)
    _ = (0#1 ++ x.code).extractLsb' 0 3 := BitVec.extractLsb'_append_eq_of_le (Nat.le_refl 4)
    _ = x.code := BitVec.extractLsb'_append_eq_right

theorem toWord_bit71 : x.toWord.getLsbD 71 = false := by
  simp only [Response.toWord, BitVec.getLsbD_append]
  rfl

/-- `CODE * 16 + CNT`: CNT fills the four bits below CODE. -/
theorem statusByte_toNat : x.statusByte.toNat = x.code.toNat * 16 + x.cnt.toNat := by
  rw [statusByte_eq, BitVec.toNat_append, BitVec.toNat_append, ← Nat.shiftLeft_add_eq_or_of_lt x.cnt.isLt]
  simp [Nat.shiftLeft_eq]

end response

/-! ### The answer to a word -/

section words
variable {s t : State} {w : CmdWord}

/-- A word that answers a next state performed an answer of the registers. -/
theorem acceptWord_next (h : acceptWord w s = .next t) : ∃ a, wordAnswer w s.toRegisters = .ok a ∧ t = s.perform a := by
  obtain ⟨a, ha, ht⟩ := (performOr_eq_next_iff s).1 ((acceptWord_eq_performOr_wordAnswer s w).symm.trans h)
  exact ⟨a, ha, ht.symm⟩

/-- From legal registers every word has a sound answer, and accepting it performs that answer. -/
theorem acceptWord_completes (w : CmdWord) (hs : s.toRegisters.Legal) :
    ∃ a, acceptWord w s = .next (s.perform a) ∧ Answer.Sound s.toRegisters a := by
  obtain ⟨a, ha, _⟩ := wordAnswer_completes w hs.pkn_le
  refine ⟨a, ?_, wordAnswer_sound hs ha⟩
  rw [acceptWord_eq_performOr_wordAnswer, ha, State.performOr_ok]

theorem acceptWord_undefined (s : State) (h : opOf w ∉ definedOps) : acceptWord w s = .next (s.raise .illegalOp) :=
  acceptWord_illegal s (rowOf_eq_none_of_undefined h)

theorem step_completes (hs : s.toRegisters.Legal) : ∃ t, step s = .next t := by
  rcases step_cases s with ⟨_, hstep⟩ | ⟨x, rest, _, hstep⟩
  · exact ⟨s, hstep⟩
  · rw [hstep]
    cases x with
    | reset => exact ⟨_, rfl⟩
    | take => exact ⟨_, rfl⟩
    | command w =>
      obtain ⟨a, ha, _⟩ := acceptWord_completes (s := s.withInputs rest) w hs
      exact ⟨_, ha⟩

end words

/-! ### CNT -/

section count
variable {r : Registers} {a : Answer}

/-- PUTB answers the new count, 1 to 8, or 8 in its fault, which leaves the packer full (R56, R85). -/
theorem putbAnswer_cnt {b : Byte} (h : putbAnswer b r = .ok a) :
    (a.rsp.code = 0 ∧ a.rsp.cnt = a.regs.pkn ∧ 1 ≤ a.rsp.cnt.toNat ∧ a.rsp.cnt.toNat ≤ 8) ∨
      (a.rsp.code = 2 ∧ a.rsp.cnt = 8 ∧ r.pkn = 8 ∧ a.regs.pkn = 8) := by
  rcases pkn_cases r.pkn with hfull | hlt | hbeyond
  · cases (putbAnswer_full r b hfull).symm.trans h
    exact .inr ⟨rfl, rfl, hfull, hfull⟩
  · cases (putbAnswer_push r b hlt).symm.trans h
    have hsucc : (r.pkn + 1).toNat = r.pkn.toNat + 1 := by bv_omega
    have hlt' : r.pkn.toNat < 8 := hlt
    exact .inl ⟨rfl, rfl, hsucc ▸ Nat.le_add_left 1 _, hsucc ▸ hlt'⟩
  · cases (putbAnswer_beyond r b hbeyond).symm.trans h

/-- GETB answers the count left, 0 to 7, or 0 in its fault (R56, R88). -/
theorem getbAnswer_cnt (hr : r.uqn.toNat ≤ 8) (h : getbAnswer r = a) :
    (a.rsp.code = 0 ∧ a.rsp.cnt = a.regs.uqn ∧ a.rsp.cnt.toNat ≤ 7) ∨ (a.rsp.code = 3 ∧ a.rsp.cnt = 0) := by
  by_cases hempty : r.uqn = 0
  · rw [← h, getbAnswer_empty r hempty]
    exact .inr ⟨rfl, rfl⟩
  · rw [← h, getbAnswer_pop r hempty]
    have hpred : (r.uqn - 1).toNat ≤ 7 := by bv_omega
    exact .inl ⟨rfl, rfl, hpred⟩

end count

/-! ### The responses of a run -/

/-- Whether a host action is a command word, which CORE answers once (R53). -/
def HostAction.isCommand : HostAction → Bool
  | .command _ => true
  | _ => false

section log
variable {s t : State}

theorem received_prefix_deliver (s : State) : s.received <+: s.deliver.received := by
  rcases deliver_cases s with ⟨_, hd⟩ | ⟨r, rest, _, hd⟩
  · rw [hd]
  · rw [hd]
    exact List.prefix_append s.received [r]

/-- An action other than reset adds one response for a command word and none for a delivery, after the earlier ones. -/
theorem performAction_log {a : HostAction} (ha : a ≠ .reset) (h : performAction a s = .next t) :
    ∃ rs, t.received ++ t.pending = s.received ++ s.pending ++ rs ∧ s.received <+: t.received ∧
      rs.length = [a].countP HostAction.isCommand := by
  cases a with
  | reset => exact absurd rfl ha
  | take =>
    cases h
    exact ⟨[], by simp, received_prefix_deliver s, rfl⟩
  | command w =>
    obtain ⟨x, _, rfl⟩ := acceptWord_next h
    exact ⟨[x.rsp], by simp, List.prefix_rfl, rfl⟩

theorem runActions_log {as : List HostAction} (h : runActions as s = .next t) (hreset : .reset ∉ as) :
    ∃ rs, t.received ++ t.pending = s.received ++ s.pending ++ rs ∧ s.received <+: t.received ∧
      rs.length = as.countP HostAction.isCommand := by
  induction as generalizing s with
  | nil => cases h; exact ⟨[], by simp⟩
  | cons a rest ih =>
    obtain ⟨hne, hrest⟩ := List.ne_and_not_mem_of_not_mem_cons hreset
    obtain ⟨m, ha, hm⟩ := runActions_cons_inv s h
    obtain ⟨rs, hlog, hreceived, hlen⟩ := performAction_log (Ne.symm hne) ha
    obtain ⟨rs', hlog', hreceived', hlen'⟩ := ih hm hrest
    refine ⟨rs ++ rs', ?_, hreceived.trans hreceived', ?_⟩
    · rw [hlog', hlog, List.append_assoc]
    · rw [List.length_append, hlen, hlen', ← List.countP_append, List.singleton_append]

end log

/-! ### The signal level -/

section wave
variable {e : Edge} {s t : State}

theorem waveDelivered_cons (e : Edge) (es : List Edge) :
    waveDelivered (e :: es) = waveDelivered [e] ++ waveDelivered es := by
  rw [waveDelivered, ← List.singleton_append, List.filter_append, List.map_append]
  rfl

theorem waveDelivered_of_delivers (h : e.delivers = true) : waveDelivered [e] = [e.rsp] := by
  simp [waveDelivered, h]

theorem waveDelivered_of_not_delivers (h : e.delivers = false) : waveDelivered [e] = [] := by
  simp [waveDelivered, h]

/-- With `rsp_valid` CORE drives the oldest response there is to present (R52, R53). -/
theorem presentable_of_driven (h : e.driven s = true) (hvalid : e.rspValid = true) :
    ∃ r rest, e.presentable s = r :: rest ∧ e.rsp = r.toWord := by
  cases hp : e.presentable s with
  | nil => simp [Edge.driven, hvalid, hp] at h
  | cons r rest =>
    simp only [Edge.driven, hvalid, hp] at h
    exact ⟨r, rest, rfl, by simpa using (Bool.and_eq_true_iff.1 h).right⟩

/-- The delivery of an edge, from the state its acceptance leaves: the host takes the word on `rsp`. -/
theorem received_of_delivery {m : State}
    (hpresented : e.rspValid = true → ∃ r rest, m.pending = r :: rest ∧ e.rsp = r.toWord)
    (h : runActions (if e.delivers then [.take] else []) m = .next t) :
    t.received.map Response.toWord = m.received.map Response.toWord ++ waveDelivered [e] := by
  cases hd : e.delivers with
  | false =>
    rw [hd] at h
    cases h
    rw [waveDelivered_of_not_delivers hd, List.append_nil]
  | true =>
    have hvalid : e.rspValid = true := by
      simp only [Edge.delivers, Bool.and_eq_true] at hd
      exact hd.left.right
    obtain ⟨r, rest, hpending, hrsp⟩ := hpresented hvalid
    rw [hd] at h
    cases h
    rw [deliver_of_pending_cons m hpending, waveDelivered_of_delivers hd, hrsp, List.map_append]
    rfl

/-- The transactions of one edge deliver the word on `rsp` where the edge delivers, and nothing else. -/
theorem received_of_edge (hdriven : e.driven s = true) (h : runActions e.actions s = .next t) :
    t.received.map Response.toWord = s.received.map Response.toWord ++ waveDelivered [e] := by
  have hpresented := presentable_of_driven hdriven
  cases hrst : e.rst with
  | true =>
    simp only [Edge.actions, hrst] at h
    cases h
    rw [waveDelivered_of_not_delivers (by simp [Edge.delivers, hrst]), List.append_nil, State.assertReset_received]
  | false =>
    cases haccepts : e.accepts with
    | false =>
      simp only [Edge.presentable, haccepts] at hpresented
      simp only [Edge.actions, hrst, haccepts] at h
      exact received_of_delivery hpresented h
    | true =>
      simp only [Edge.actions, hrst, haccepts] at h
      obtain ⟨m, hm, hdelivery⟩ := runActions_cons_inv s h
      have haccepted : acceptWord e.cmd s = .next m := hm
      simp only [Edge.presentable, haccepts, haccepted, if_true] at hpresented
      obtain ⟨a, _, rfl⟩ := acceptWord_next haccepted
      exact received_of_delivery (m := s.perform a) hpresented hdelivery

/-- A legal waveform's first edge is driven as CORE may, its transactions run, and the rest is legal after them. -/
theorem legalWave_cons {es : List Edge} (h : legalWave (e :: es) s = true) :
    e.driven s = true ∧ ∃ t, runActions e.actions s = .next t ∧ legalWave es t = true := by
  simp only [legalWave, Bool.and_eq_true] at h
  obtain ⟨⟨hdriven, _⟩, hrest⟩ := h
  refine ⟨hdriven, ?_⟩
  cases hrun : runActions e.actions s with
  | next t => exact ⟨t, rfl, by simpa [hrun] using hrest⟩
  | fault r => simp [hrun] at hrest
  | refused r => simp [hrun] at hrest

theorem legalWave_delivers {es : List Edge} (h : legalWave es s = true) :
    ∃ t, runActions (waveActions es) s = .next t ∧
      t.received.map Response.toWord = s.received.map Response.toWord ++ waveDelivered es := by
  induction es generalizing s with
  | nil => exact ⟨s, rfl, (List.append_nil _).symm⟩
  | cons e rest ih =>
    obtain ⟨hdriven, m, hm, hlegal⟩ := legalWave_cons h
    obtain ⟨t, hrun, hreceived⟩ := ih hlegal
    refine ⟨t, ?_, ?_⟩
    · rw [waveActions, List.flatMap_cons, runActions_append _ hm]
      exact hrun
    · rw [hreceived, received_of_edge hdriven hm, waveDelivered_cons e rest, List.append_assoc]

end wave

/-! ### The assembler's lines -/

section lines
variable {l : AsmLine}

theorem instr_wellFormed (i : Instr) : i.wellFormed = true := by cases i <;> rfl

theorem expandLine_putbs {bytes : List Byte} (h1 : 1 ≤ bytes.length) (h8 : bytes.length ≤ 8) :
    expandLine (.putbs bytes) = some (bytes.map fun b => .command (encode (.putb b))) :=
  if_pos (by simp [AsmLine.wellFormed, h1, h8])

theorem expandLine_getbs {n : Nat} (h1 : 1 ≤ n) (h8 : n ≤ 8) :
    expandLine (.getbs n) = some (List.replicate n (.command (encode .getb))) :=
  if_pos (by simp [AsmLine.wellFormed, h1, h8])

/-- Only a pseudo-instruction can be refused: every other line is well formed. -/
theorem pseudo_of_expandLine_eq_none (h : expandLine l = none) : (∃ bytes, l = .putbs bytes) ∨ ∃ n, l = .getbs n := by
  cases l with
  | putbs bytes => exact .inl ⟨bytes, rfl⟩
  | getbs n => exact .inr ⟨n, rfl⟩
  | instr i =>
    have hexpand : expandLine (.instr i) = some [.command (encode i)] := if_pos (instr_wellFormed i)
    cases hexpand.symm.trans h
  | word w => cases h
  | reset => cases h
  | blank => cases h

/-- The actions of a line other than reset are command words. -/
theorem exists_words_of_expandLine {as : List HostAction} (h : expandLine l = some as) (hreset : .reset ∉ as) :
    ∃ ws : List CmdWord, as = ws.map .command := by
  obtain ⟨_, h⟩ := Option.ite_none_right_eq_some.1 h
  cases l with
  | instr i => cases h; exact ⟨[encode i], rfl⟩
  | putbs bytes => cases h; exact ⟨bytes.map fun b => encode (.putb b), by rw [List.map_map]; rfl⟩
  | getbs n => cases h; exact ⟨List.replicate n (encode .getb), List.map_replicate.symm⟩
  | word w => cases h; exact ⟨[w], rfl⟩
  | reset => cases h; exact absurd List.mem_cons_self hreset
  | blank => cases h; exact ⟨[], rfl⟩

end lines

/-! ### The obligations of the encoding -/

/-- Settles O1: a command's row reads it back from its canonical word, which the encoder gives by definition. -/
theorem encodedCommandDecodesToItself : Obligations.EncodedCommandDecodesToItself := fun i _ =>
  ⟨decode_encode i, (canonical_iff_encode_eq (decode_encode i)).2 rfl⟩

/-- Settles O2: the row that made the command also says which operand bits canonical form keeps. -/
theorem decodedWordReencodesCanonically : Obligations.DecodedWordReencodesCanonically := fun _ _ h =>
  ⟨encode_eq_canonicalize h, canonical_iff_encode_eq h⟩

/-- Settles O3, by whether the opcode selects a row. -/
theorem decoderIsTotalByOpcode : Obligations.DecoderIsTotalByOpcode := by
  refine ⟨by decide, rfl, fun w => ?_⟩
  by_cases hdef : opOf w ∈ definedOps
  · obtain ⟨r, hrow⟩ := mem_definedOps_iff.1 hdef
    obtain ⟨hr, hop⟩ := rowOf_eq_some hrow
    obtain ⟨hbuildOp, hoperand⟩ := op_operand_build hr (operandOf w)
    exact .inl ⟨hdef, r.build (operandOf w), r, hrow, decode_of_row hrow, hbuildOp.trans hop, hoperand⟩
  · exact .inr ⟨hdef, decode_of_no_row (rowOf_eq_none_of_undefined hdef)⟩

/-- Settles O4: a row reads its operand field only under its format's mask, and canonical operands lie under it. -/
theorem ignoredOperandBitsHaveNoEffect : Obligations.IgnoredOperandBitsHaveNoEffect := by
  refine ⟨rfl, fun op x y r hrow hagree => ?_, fun i => ?_⟩
  · have hbuild : r.build x = r.build y := build_congr (rowOf_eq_some hrow).left (and_usedBits_eq_of_agree hagree)
    have hdecode (z : Block) : decode (packWord op z) = .ok (r.build z) := by
      rw [decode_of_row (by rwa [opOf_packWord]), operandOf_packWord]
    have hsame : decode (packWord op x) = decode (packWord op y) := by rw [hdecode, hdecode, hbuild]
    exact ⟨hsame, acceptWord_congr hsame⟩
  · obtain ⟨r, hrow, _⟩ := exists_row i
    have hoperand := operand_eq_and_usedBits hrow
    refine ⟨r, hrow, fun hn => ?_, fun hb => ?_⟩
    · rw [hoperand, hn]
      exact BitVec.and_zero
    · rw [hoperand, hb, BitVec.extractLsb'_and]
      exact BitVec.and_zero

/-- Settles O6: an undefined opcode selects no row, so the word takes the fault entry. -/
theorem illegalWordRaisesIllegalOp : Obligations.IllegalWordRaisesIllegalOp := by
  refine ⟨length_undefinedOps, by decide, by decide, by decide, fun w s hop => ?_⟩
  exact ⟨s.raise .illegalOp, acceptWord_undefined s hop, answers_perform _, ⟨rfl, rfl, rfl, rfl, rfl, rfl⟩, rfl⟩

/-- Settles O7: the fields of the word as it is put together, and a sound answer's bounds. -/
theorem responseWordHasItsFields : Obligations.ResponseWordHasItsFields := by
  refine ⟨fun x => ⟨toWord_bit71 x, toWord_code x, toWord_cnt x, toWord_data x, statusByte_toNat x⟩, ?_⟩
  intro w s t r hs ht hr
  obtain ⟨a, ha, rfl⟩ := acceptWord_next ht
  obtain ⟨hcode, hcnt, _⟩ := (wordAnswer_sound (registersOk_iff_legal.1 hs) ha).rsp_ok
  rw [← rsp_eq_of_answers_perform hr]
  exact ⟨hcode, hcnt⟩

/-- Settles O42: the response is the answer's, command by command. -/
theorem countFieldPerCommand : Obligations.CountFieldPerCommand := by
  constructor
  · intro i s t r hs ht hr
    obtain ⟨a, ha, rfl⟩ := exec_next s t ht
    obtain rfl := rsp_eq_of_answers_perform hr
    have hlegal := registersOk_iff_legal.1 hs
    cases i with
    | putb b => exact putbAnswer_cnt ha
    | pack => cases ha; exact ⟨rfl, rfl, hlegal.pkn_le⟩
    | getb => exact getbAnswer_cnt hlegal.uqn_le (Except.ok.inj ha)
    | _ => cases ha; exact ⟨rfl, rfl⟩
  · intro w s t r hop ht hr
    cases (acceptWord_undefined s hop).symm.trans ht
    rw [← rsp_eq_of_answers_perform hr]
    exact ⟨rfl, rfl⟩

/-- Settles O51: from legal registers every word has a sound answer. -/
theorem legalMachineNeverStops : Obligations.LegalMachineNeverStops := by
  refine ⟨fun w s hs => ?_, fun s hs => step_completes (registersOk_iff_legal.1 hs)⟩
  obtain ⟨a, ha, hsound⟩ := acceptWord_completes w (registersOk_iff_legal.1 hs)
  exact ⟨s.perform a, a.rsp, ha, answers_perform a, hsound.rsp_ok⟩

/-- Settles O52, by induction on the actions. -/
theorem responsesMatchCommandsInOrder : Obligations.ResponsesMatchCommandsInOrder := fun _ _ _ h hreset =>
  runActions_log h hreset

/-- Settles O59, by induction on the edges. -/
theorem waveformDeliversTheResponses : Obligations.WaveformDeliversTheResponses := fun _ _ h => legalWave_delivers h

/-- Settles O60: a line's actions are command words unless it is reset, and words run from legal registers. -/
theorem pseudoInstructionsExpand : Obligations.PseudoInstructionsExpand := by
  refine ⟨fun _ => expandLine_putbs, fun _ => expandLine_getbs, fun _ => pseudo_of_expandLine_eq_none, ?_⟩
  intro l as s ⟨⟨hpkn, _⟩, _⟩ hexpand hreset
  obtain ⟨ws, rfl⟩ := exists_words_of_expandLine hexpand hreset
  obtain ⟨t, rs, hrun, hpending, hlen, _⟩ := runWords_completes s ws hpkn
  exact ⟨t, rs, hrun, hpending, hlen.trans (List.length_map _).symm⟩

/-- Settles O5, by evaluating the encoder and the decoder on the fixed words of R62. -/
theorem encodingExamplesDecode : Obligations.EncodingExamplesDecode := by
  unfold Obligations.EncodingExamplesDecode
  decide

end Sys2Proof.Machine

/-! SUPPORT. The family of 40_block_transform.md: a left rotation by `c` moves bit `j - c` to bit `j`, modulo 64,
so the laws of rotations are those of addition in `Fin 64` (R63 to R68); a round is invertible, and four rounds collapse
to one rotation and one XOR (R69 to R74), which the two builds compute (R78); ENCB and DECB answer it (R76, R77). -/

namespace Sys2Proof.Machine

/-! ### Rotations bit by bit -/

section rotations
variable (x y : Block) (a b c : Fin 64)

theorem eq_of_bits {v w : Block} (h : ∀ j : Fin 64, v.getLsbD j.val = w.getLsbD j.val) : v = w :=
  BitVec.eq_of_getLsbD_eq fun i hi => h ⟨i, hi⟩

theorem getLsbD_rotl (j : Fin 64) : (rotl x c).getLsbD j.val = x.getLsbD (j - c).val := by
  rw [rotl_eq_rotateLeft, BitVec.getLsbD_rotateLeft_of_le c.isLt, Fin.val_sub]
  by_cases h : j.val < c.val
  · have hindex : (64 - c.val + j.val) % 64 = 64 - c.val + j.val := by omega
    simp [h, hindex]
  · have hindex : (64 - c.val + j.val) % 64 = j.val - c.val := by omega
    simp [h, hindex]

theorem getLsbD_rotr (j : Fin 64) : (rotr x c).getLsbD j.val = x.getLsbD (j + c).val := by
  rw [rotr_eq_rotateRight, BitVec.getLsbD_rotateRight, Nat.mod_eq_of_lt c.isLt, Fin.val_add]
  by_cases h : j.val < 64 - c.val
  · have hindex : (j.val + c.val) % 64 = c.val + j.val := by omega
    simp [h, hindex]
  · have hindex : (j.val + c.val) % 64 = j.val - (64 - c.val) := by omega
    simp [h, hindex]

@[simp] theorem rotl_zero : rotl x 0 = x := if_pos rfl

@[simp] theorem rotr_zero : rotr x 0 = x := if_pos rfl

theorem rotr_eq_rotl_neg : rotr x c = rotl x (-c) :=
  eq_of_bits fun j => by rw [getLsbD_rotr, getLsbD_rotl, sub_neg_eq_add]

theorem rotl_eq_rotr_neg : rotl x c = rotr x (-c) := by rw [rotr_eq_rotl_neg, neg_neg]

theorem rotl_rotl : rotl (rotl x a) b = rotl x (a + b) :=
  eq_of_bits fun j => by rw [getLsbD_rotl, getLsbD_rotl, getLsbD_rotl, sub_sub, add_comm]

theorem rotr_rotr : rotr (rotr x a) b = rotr x (a + b) := by
  rw [rotr_eq_rotl_neg, rotr_eq_rotl_neg, rotr_eq_rotl_neg, rotl_rotl, neg_add]

@[simp] theorem rotl_rotr : rotl (rotr x c) c = x := by
  rw [rotr_eq_rotl_neg, rotl_rotl, neg_add_cancel, rotl_zero]

@[simp] theorem rotr_rotl : rotr (rotl x c) c = x := by
  rw [rotr_eq_rotl_neg, rotl_rotl, add_neg_cancel, rotl_zero]

theorem rotl_xor : rotl (x ^^^ y) c = rotl x c ^^^ rotl y c :=
  eq_of_bits fun j => by simp only [getLsbD_rotl, BitVec.getLsbD_xor]

theorem rotr_xor : rotr (x ^^^ y) c = rotr x c ^^^ rotr y c := by
  simp only [rotr_eq_rotl_neg, rotl_xor]

theorem rotl_of_uniform {v : Block} {bit : Bool} (h : ∀ j : Fin 64, v.getLsbD j.val = bit) : rotl v c = v :=
  eq_of_bits fun j => by rw [getLsbD_rotl, h, h]

theorem rotl_zeros : rotl 0 c = 0 := rotl_of_uniform c fun _ => BitVec.getLsbD_zero

theorem rotl_ones : rotl 0xFFFFFFFFFFFFFFFF c = 0xFFFFFFFFFFFFFFFF := rotl_of_uniform (bit := true) c (by decide)

/-- The bits that leave at the top come in at the bottom. -/
theorem lowBits_rotl : (rotl x c).extractLsb' 0 c.val = x.extractLsb' (64 - c.val) c.val := by
  refine BitVec.eq_of_getLsbD_eq fun i hi => ?_
  have hbit := getLsbD_rotl x c ⟨i, by omega⟩
  have hindex : (64 - c.val + i) % 64 = 64 - c.val + i := by omega
  rw [Fin.val_sub, hindex] at hbit
  simpa [BitVec.getLsbD_extractLsb', hi] using hbit

/-- Rotation by five lanes moves every lane five lanes up (R74). -/
theorem lane_rotl_40 (k : Fin 8) : lane (rotl x 40) ((k.val + 5) % 8) = lane x k.val := by
  refine BitVec.eq_of_getLsbD_eq fun i hi => ?_
  have hbit := getLsbD_rotl x 40 ⟨8 * ((k.val + 5) % 8) + i, by omega⟩
  have hindex : (64 - 40 + (8 * ((k.val + 5) % 8) + i)) % 64 = 8 * k.val + i := by omega
  rw [Fin.val_sub, show (40 : Fin 64).val = 40 from rfl, hindex] at hbit
  rw [getLsbD_lane, getLsbD_lane, hbit]

end rotations

/-! ### The number of one bits -/

section count
variable {x v : Block}

theorem onesCount_eq_countP_finRange : onesCount x = (List.finRange 64).countP fun j => x.getLsbD j.val := by
  rw [onesCount, ← List.map_coe_finRange_eq_range, List.countP_map]
  rfl

theorem onesCount_eq_of_permuted (σ : Equiv.Perm (Fin 64))
    (h : ∀ j : Fin 64, v.getLsbD j.val = x.getLsbD (σ j).val) : onesCount v = onesCount x := by
  calc onesCount v = (List.finRange 64).countP fun j => x.getLsbD (σ j).val := by
        simp only [onesCount_eq_countP_finRange, h]
    _ = ((List.finRange 64).map σ).countP fun j => x.getLsbD j.val := by rw [List.countP_map]; rfl
    _ = onesCount x := by rw [onesCount_eq_countP_finRange, σ.map_finRange_perm.countP_eq]

theorem onesCount_rotl (c : Fin 64) : onesCount (rotl x c) = onesCount x :=
  onesCount_eq_of_permuted (Equiv.subRight c) (getLsbD_rotl x c)

theorem onesCount_rotr (c : Fin 64) : onesCount (rotr x c) = onesCount x :=
  onesCount_eq_of_permuted (Equiv.addRight c) (getLsbD_rotr x c)

end count

/-! ### The rounds and the block transform -/

section transform
variable (B K : Block)

@[simp] theorem decRound_encRound : decRound (encRound B K) K = B := by
  rw [decRound, encRound, BitVec.xor_assoc, BitVec.xor_self, BitVec.xor_zero, rotr_rotl]

@[simp] theorem encRound_decRound : encRound (decRound B K) K = B := by
  rw [encRound, decRound, rotl_rotr, BitVec.xor_assoc, BitVec.xor_self, BitVec.xor_zero]

theorem applyRounds_eq_iterate (round : Block → Block → Block) (n : Nat) :
    applyRounds round K n B = (round · K)^[n] B := by
  induction n generalizing B with
  | zero => rfl
  | succ n ih => exact ih (round B K)

/-- Rounds undone one by one are undone together. -/
theorem applyRounds_leftInverse {f g : Block → Block → Block} (h : ∀ b, g (f b K) K = b) (n : Nat) :
    applyRounds g K n (applyRounds f K n B) = B := by
  rw [applyRounds_eq_iterate, applyRounds_eq_iterate]
  exact Function.LeftInverse.iterate (f := (f · K)) (g := (g · K)) h n B

@[simp] theorem decryptBlock_encryptBlock : decryptBlock (encryptBlock B K) K = B :=
  applyRounds_leftInverse B K (decRound_encRound · K) Config.rounds

@[simp] theorem encryptBlock_decryptBlock : encryptBlock (decryptBlock B K) K = B :=
  applyRounds_leftInverse B K (encRound_decRound · K) Config.rounds

theorem encryptBlock_bijective : Function.Bijective (encryptBlock · K) :=
  Function.bijective_iff_has_inverse.2
    ⟨(decryptBlock · K), (decryptBlock_encryptBlock · K), (encryptBlock_decryptBlock · K)⟩

theorem encryptBlock_eq_four_rounds :
    encryptBlock B K = encRound (encRound (encRound (encRound B K) K) K) K := rfl

theorem decryptBlock_eq_four_rounds :
    decryptBlock B K = decRound (decRound (decRound (decRound B K) K) K) K := rfl

/-- Each round's key is rotated once by every later round (R74). -/
theorem encryptBlock_eq_unrolled : encryptBlock B K = unrolledEncrypt B K := by
  simp only [encryptBlock_eq_four_rounds, encRound, Config.rot, rotl_xor, rotl_rotl, unrolledEncrypt, keyMaskEnc,
    BitVec.xor_assoc, Fin.reduceAdd]

theorem decryptBlock_eq_unrolled : decryptBlock B K = unrolledDecrypt B K := by
  simp only [decryptBlock_eq_four_rounds, decRound, Config.rot, rotr_xor, rotr_rotr, unrolledDecrypt, keyMaskDec,
    BitVec.xor_assoc, Fin.reduceAdd]

/-- A rotation right by 40 takes the summand rotated left by `c` to the one rotated right by `40 - c`. -/
theorem keyMaskDec_eq_rotr_keyMaskEnc : keyMaskDec K = rotr (keyMaskEnc K) 40 := by
  have hcompose (c : Fin 64) : rotr (rotl K c) 40 = rotr K (40 - c) := by
    rw [rotr_eq_rotl_neg, rotr_eq_rotl_neg, rotl_rotl, neg_sub, sub_eq_add_neg]
  calc keyMaskDec K = rotr K 10 ^^^ rotr K 20 ^^^ rotr K 30 ^^^ rotr K 40 := by rw [keyMaskDec]; ac_rfl
    _ = rotr (keyMaskEnc K) 40 := by simp only [keyMaskEnc, rotr_xor, hcompose, Fin.reduceSub]

end transform

/-! ### The two builds -/

section builds
variable (d : Direction) (B K : Block)

theorem Direction.transform_eq_four_rounds :
    d.transform B K = d.round (d.round (d.round (d.round B K) K) K) K := by
  cases d with
  | encrypt => exact encryptBlock_eq_four_rounds B K
  | decrypt => exact decryptBlock_eq_four_rounds B K

/-- Four moves take the block offered first through four rounds of its direction into the last stage. -/
theorem stage4_feed_four (p : Pipeline) (o2 o3 o4 : Option InFlight) :
    (p.feed K [some (d, B), o2, o3, o4]).stage4 = some (d, d.transform B K) := by
  rw [Direction.transform_eq_four_rounds]
  rfl

theorem pipelined_eq_transform : pipelined d B K = some (d.transform B K) := by
  rw [pipelined, stage4_feed_four]
  rfl

theorem buildTransform_eq_transform (impl : Config.Impl) : buildTransform impl d B K = some (d.transform B K) := by
  cases impl with
  | pipelined => exact pipelined_eq_transform d B K
  | unrolled =>
    cases d with
    | encrypt => exact congrArg some (encryptBlock_eq_unrolled B K).symm
    | decrypt => exact congrArg some (decryptBlock_eq_unrolled B K).symm

end builds

/-! ### ENCB and DECB -/

section commands
variable (s : State)

/-- An answer without fault that leaves the registers as they are adds its response and changes nothing else. -/
theorem perform_respond_sameRegisters (n : BitVec 4) (data : Block) :
    s.perform (s.toRegisters.respond 0 n data) = { s with pending := s.pending ++ [⟨0, n, data⟩] } := rfl

theorem exec_encb_next (b : Block) :
    exec (.encb b) s = .next { s with pending := s.pending ++ [⟨0, 0, encryptBlock b Config.key⟩] } :=
  congrArg Host.Outcome.next (perform_respond_sameRegisters s 0 _)

theorem exec_decb_next (b : Block) :
    exec (.decb b) s = .next { s with pending := s.pending ++ [⟨0, 0, decryptBlock b Config.key⟩] } :=
  congrArg Host.Outcome.next (perform_respond_sameRegisters s 0 _)

theorem idempotentAt_encb (b : Block) : IdempotentAt (.encb b) s := idempotentAt_iff.2 ⟨_, rfl, rfl⟩

theorem idempotentAt_decb (b : Block) : IdempotentAt (.decb b) s := idempotentAt_iff.2 ⟨_, rfl, rfl⟩

/-- With a chaining value of zero ENC encrypts its operand as it stands (R97). -/
theorem encAnswer_rsp_of_iv_zero (p : Block) {r : Registers} (h : r.iv = 0) :
    (encAnswer p r).rsp = ⟨0, 0, encryptBlock p Config.key⟩ := by
  simp [encAnswer, h]

end commands

/-! ### The obligations of the block transform -/

/-- Settles O9: the two counts cancel. -/
theorem rotationsAreInverse : Obligations.RotationsAreInverse := fun x c => ⟨rotl_rotr x c, rotr_rotl x c⟩

/-- Settles O10: bit positions and counts are added and subtracted modulo 64, as in `Fin 64`. -/
theorem rotationMovesEachBit : Obligations.RotationMovesEachBit := by
  refine ⟨fun x c j => ⟨?_, getLsbD_rotr x c j⟩, rotl_eq_rotr_neg, rotl_rotl, fun c => ?_, (lowBits_rotl · 10)⟩
  · have hindex : (j.val + 64 - c.val) % 64 = (64 - c.val + j.val) % 64 := by omega
    rw [getLsbD_rotl, Fin.val_sub, hindex]
  · simp only [rotr_eq_rotl_neg, rotl_zeros, rotl_ones, and_self]

/-- Settles O11: XOR acts bit by bit, and a rotation permutes the bits. -/
theorem rotationDistributesOverXor : Obligations.RotationDistributesOverXor := fun a b c =>
  ⟨rotl_xor a b c, rotr_xor a b c, onesCount_rotl c, onesCount_rotr c⟩

/-- Settles O12: the rounds invert each other, hence so do four of them. -/
theorem blockTransformIsInvertible : Obligations.BlockTransformIsInvertible :=
  ⟨fun b K => ⟨rfl, rfl, decRound_encRound b K, encRound_decRound b K⟩,
    fun K => ⟨(decryptBlock_encryptBlock · K), (encryptBlock_decryptBlock · K), encryptBlock_bijective K⟩⟩

/-- Settles O13: rotations distribute over the XORs of the four rounds and add up; the constants are evaluated. -/
theorem transformHasClosedForm : Obligations.TransformHasClosedForm :=
  ⟨fun B K =>
    ⟨encryptBlock_eq_unrolled B K, decryptBlock_eq_unrolled B K, rfl, rfl, keyMaskDec_eq_rotr_keyMaskEnc K⟩,
    lane_rotl_40, by decide⟩

/-- Settles O14: the unrolled build is the closed form, and the pipeline's stages are the four rounds. -/
theorem bothBuildsComputeTheTransform : Obligations.BothBuildsComputeTheTransform :=
  ⟨fun impl B K => ⟨buildTransform_eq_transform .encrypt B K impl, buildTransform_eq_transform .decrypt B K impl⟩,
    fun p K B o2 o3 o4 => ⟨stage4_feed_four .encrypt B K p o2 o3 o4, stage4_feed_four .decrypt B K p o2 o3 o4⟩⟩

/-- Settles O16: DECB undoes ENCB since decryption inverts encryption; the corner values are evaluated. -/
theorem decbAnswersDecryptedBlock : Obligations.DecbAnswersDecryptedBlock := by
  refine ⟨fun _ => decode_decb, fun s b => ⟨exec_decb_next s b, idempotentAt_decb s b, ?_⟩, by decide⟩
  refine ⟨_, _, exec_encb_next s b, ⟨rfl, rfl, rfl⟩, exec_decb_next _ _, ?_⟩
  rw [decryptBlock_encryptBlock]
  exact ⟨rfl, rfl, rfl⟩

/-- Settles O8, by the two branches of the rotations and the number of rounds. -/
theorem rotationsAndRoundsFollowTheirFormulas : Obligations.RotationsAndRoundsFollowTheirFormulas := by
  refine ⟨fun x c hc => ?_, fun x => ⟨rotl_zero x, rotr_zero x⟩,
    fun B K => ⟨encryptBlock_eq_four_rounds B K, decryptBlock_eq_four_rounds B K⟩⟩
  have hne : c ≠ 0 := Fin.pos_iff_ne_zero.1 hc
  exact ⟨if_neg hne, if_neg hne⟩

/-- Settles O15: ENC from a zero chaining value encrypts the same block; the corner values are evaluated. -/
theorem encbAnswersEncryptedBlock : Obligations.EncbAnswersEncryptedBlock := by
  refine ⟨fun _ => decode_encb, fun s b => ⟨exec_encb_next s b, idempotentAt_encb s b, ?_⟩, by decide⟩
  exact ⟨_, exec_enc _ b, congrArg (s.pending ++ [·]) (encAnswer_rsp_of_iv_zero b rfl)⟩

end Sys2Proof.Machine

/-! SUPPORT. The family of 41_marshal.md: a block is its eight lanes, so the byte functions are told apart lane by lane
(R79 to R82), and a byte sequence is cut into groups of eight (R83, R84); the packer and the unpacker hold such lanes,
and each command is one equation on what they hold (R85 to R90). -/

namespace Sys2Proof.Machine

/-! ### Lanes -/

section lanes
variable (x y : Block) (b : Byte)

theorem lane_zero (k : Nat) : lane 0 k = 0 := BitVec.extractLsb'_zero

theorem lane_or (k : Nat) : lane (x ||| y) k = lane x k ||| lane y k := BitVec.extractLsb'_or

/-- A byte shifted up to lane `i` fills that lane and no other. -/
theorem lane_zextByte_shiftLeft {i k : Nat} (hk : k < 8) :
    lane (zextByte b <<< (8 * i)) k = if k = i then b else 0 := by
  refine BitVec.eq_of_getLsbD_eq fun j hj => ?_
  rw [getLsbD_lane, BitVec.getLsbD_shiftLeft, zextByte, BitVec.getLsbD_setWidth]
  rcases Nat.lt_trichotomy k i with hlt | rfl | hgt
  · have hbelow : 8 * k + j < 8 * i := by omega
    simp [hbelow, hlt.ne]
  · have hin : 8 * k + j < 64 := by omega
    have hbits : j < 64 := by omega
    simp [hin, hj, hbits]
  · have habove : b.getLsbD (8 * k + j - 8 * i) = false := BitVec.getLsbD_of_ge _ _ (by omega)
    simp [habove, hgt.ne']

theorem byteOf_operandOf (w : CmdWord) : byteOf (operandOf w) = w.extractLsb' 0 8 := by
  refine BitVec.eq_of_getLsbD_eq fun i hi => ?_
  simp [byteOf, operandOf, hi]

/-- Shifting out the `j` lowest lanes brings the others down. -/
theorem lane_ushiftRight (j k : Nat) : lane (x >>> (8 * j)) k = lane x (j + k) := by
  refine BitVec.eq_of_getLsbD_eq fun i _ => ?_
  rw [getLsbD_lane, getLsbD_lane, BitVec.getLsbD_ushiftRight, Nat.mul_add, Nat.add_assoc]

/-- Writing a lane that is zero is an OR (R85). -/
theorem setLane_eq_or {v : Block} {k : Nat} (hk : k < 8) (hv : lane v k = 0) :
    setLane v k b = v ||| (zextByte b <<< (8 * k)) := by
  refine eq_of_lanes fun j hj => ?_
  rw [lane_setLane v b k j hk hj, lane_or, lane_zextByte_shiftLeft b hj]
  split
  · next h => rw [h, hv]; exact BitVec.zero_or.symm
  · exact BitVec.or_zero.symm

end lanes

/-! ### Blocks and bytes -/

section bytes
variable (x : Block)

theorem blockToBytes_eq_ofFn : blockToBytes x = Vector.ofFn fun k : Fin 8 => lane x k.val := rfl

@[simp] theorem getElem_blockToBytes {k : Nat} (hk : k < 8) : (blockToBytes x)[k] = lane x k := by
  simp only [blockToBytes_eq_ofFn, Vector.getElem_ofFn]

@[simp] theorem getElem_fin_blockToBytes (k : Fin 8) : (blockToBytes x)[k] = lane x k.val :=
  getElem_blockToBytes x k.isLt

/-- A lane by shift and mask (R79). -/
theorem zextByte_lane (k : Nat) : zextByte (lane x k) = (x >>> (8 * k)) &&& 0xFF :=
  calc zextByte (lane x k) = zextByte (lane (x >>> (8 * k)) 0) := by rw [lane_ushiftRight, Nat.add_zero]
    _ = (x >>> (8 * k)) &&& 0xFF := setWidth_byteOf _

theorem lane_bytesToBlock (y : Vector Byte 8) {k : Nat} (hk : k < 8) : lane (bytesToBlock y) k = y[k] := by
  have hshift (b : Byte) (i : Nat) : lane (zextByte b <<< (8 * i)) k = if k = i then b else 0 :=
    lane_zextByte_shiftLeft b hk
  have hform : bytesToBlock y =
      zextByte y[0] <<< (8 * 0) ||| zextByte y[1] <<< (8 * 1) ||| zextByte y[2] <<< (8 * 2) |||
        zextByte y[3] <<< (8 * 3) ||| zextByte y[4] <<< (8 * 4) ||| zextByte y[5] <<< (8 * 5) |||
        zextByte y[6] <<< (8 * 6) ||| zextByte y[7] <<< (8 * 7) := by
    rw [Nat.mul_zero, BitVec.shiftLeft_zero]
    rfl
  simp only [hform, lane_or, hshift]
  interval_cases k <;> simp

@[simp] theorem bytesToBlock_blockToBytes : bytesToBlock (blockToBytes x) = x :=
  eq_of_lanes fun k hk => by rw [lane_bytesToBlock _ hk, getElem_blockToBytes]

@[simp] theorem blockToBytes_bytesToBlock (y : Vector Byte 8) : blockToBytes (bytesToBlock y) = y :=
  Vector.ext fun k hk => by rw [getElem_blockToBytes, lane_bytesToBlock y hk]

end bytes

/-! ### Padding -/

section padding
variable (y : List Byte)

theorem lane_padBlock {k : Nat} (hk : k < 8) : lane (padBlock y) k = y.getD k 0 := by
  rw [padBlock, lane_bytesToBlock _ hk, padBytes, Vector.getElem_ofFn]

@[simp] theorem padBlock_nil : padBlock [] = 0 :=
  eq_of_lanes fun k hk => (lane_padBlock [] hk).trans (lane_zero k).symm

theorem padBytes_toList (v : Vector Byte 8) : padBytes v.toList = v :=
  Vector.ext fun k hk => by simp [padBytes]

@[simp] theorem padBlock_toList (v : Vector Byte 8) : padBlock v.toList = bytesToBlock v := by
  rw [padBlock, padBytes_toList]

/-- One more byte goes into the first free lane (R85). -/
theorem setLane_padBlock (b : Byte) {y : List Byte} (hy : y.length < 8) :
    setLane (padBlock y) y.length b = padBlock (y ++ [b]) := by
  refine eq_of_lanes fun k hk => ?_
  rw [lane_setLane _ _ _ _ hy hk, lane_padBlock _ hk, lane_padBlock _ hk]
  rcases Nat.lt_trichotomy k y.length with hlt | rfl | hgt
  · rw [if_neg hlt.ne, List.getD_append _ _ _ _ hlt]
  · simp
  · rw [if_neg hgt.ne', List.getD_eq_default _ _ hgt.le, List.getD_eq_default _ _ (by simpa using hgt)]

/-- Written with a data zero or left out, the first free lane is zero. -/
theorem padBlock_append_zero {y : List Byte} (hy : y.length < 8) : padBlock (y ++ [0]) = padBlock y := by
  rw [← setLane_padBlock 0 hy]
  refine eq_of_lanes fun k hk => ?_
  rw [lane_setLane _ _ _ _ hy hk]
  split
  · next h => rw [h, lane_padBlock _ hy, List.getD_eq_default _ _ (Nat.le_refl _)]
  · rfl

/-- The bytes of a padded block: those given, then the padding zeros. -/
theorem toList_blockToBytes_padBlock {y : List Byte} (hy : y.length ≤ 8) :
    (blockToBytes (padBlock y)).toList = y ++ List.replicate (8 - y.length) 0 := by
  refine List.ext_getElem (by simp [hy]) fun k hk hk' => ?_
  have hk8 : k < 8 := by simpa using hk
  rw [Vector.getElem_toList, getElem_blockToBytes, lane_padBlock y hk8, List.getElem_append]
  split
  · next h => exact List.getD_eq_getElem _ _ h
  · next h => rw [List.getElem_replicate, List.getD_eq_default _ _ (Nat.le_of_not_lt h)]

end padding

/-! ### Groups of eight bytes -/

/-- The groups of eight bytes a byte sequence is cut into, the last one possibly shorter (R84). -/
def byteGroups (t : List Byte) : List (List Byte) := (List.range (blockCount t.length)).map (byteGroup t)

section groups
variable (t : List Byte)

theorem bytesToBlocks_eq_map_byteGroups : bytesToBlocks t = (byteGroups t).map padBlock :=
  (List.map_map (f := byteGroup t) (g := padBlock)).symm

theorem packStream_eq_flatMap_byteGroups : packStream t = (byteGroups t).flatMap packGroup :=
  (List.flatMap_map (byteGroup t) packGroup _).symm

@[simp] theorem length_byteGroups : (byteGroups t).length = blockCount t.length := by simp [byteGroups]

theorem length_byteGroup (i : Nat) : (byteGroup t i).length = min 8 (t.length - 8 * i) := by simp [byteGroup]

/-- No group is empty, and none is longer than a block. -/
theorem length_of_mem_byteGroups {g : List Byte} (hg : g ∈ byteGroups t) : 1 ≤ g.length ∧ g.length ≤ 8 := by
  obtain ⟨i, hi, rfl⟩ := List.mem_map.1 hg
  rw [List.mem_range, blockCount] at hi
  rw [length_byteGroup]
  omega

/-- The first group is the first eight bytes, and the others are the groups of what follows them. -/
theorem byteGroups_of_ne_nil {t : List Byte} (ht : t ≠ []) : byteGroups t = t.take 8 :: byteGroups (t.drop 8) := by
  have hpos := List.length_pos_iff.2 ht
  have hcount : blockCount t.length = blockCount (t.drop 8).length + 1 := by
    rw [List.length_drop, blockCount, blockCount]
    omega
  have hnext (i : Nat) : byteGroup t (i + 1) = byteGroup (t.drop 8) i := by
    rw [byteGroup, byteGroup, List.drop_drop, Nat.mul_succ, Nat.add_comm]
  rw [byteGroups, hcount, List.range_succ_eq_map, List.map_cons, List.map_map]
  exact congrArg (t.take 8 :: ·) (List.map_congr_left fun i _ => hnext i)

/-- A block's worth of bytes is cut off as one group. -/
theorem byteGroups_append {g : List Byte} (hg : g.length = 8) : byteGroups (g ++ t) = g :: byteGroups t := by
  have hne : g ++ t ≠ [] := List.ne_nil_of_length_pos (by simp [hg])
  rw [byteGroups_of_ne_nil hne, List.take_left' hg, List.drop_left' hg]

/-- The last group of a sequence that is not empty has `n_last` bytes (R84). -/
theorem getLast?_length_byteGroups {t : List Byte} (ht : t ≠ []) :
    ((byteGroups t).map List.length).getLast? = some (lastBlockLength t) := by
  have hpos := List.length_pos_iff.2 ht
  have hcount : blockCount t.length ≠ 0 := by
    rw [blockCount]
    omega
  have hlast : min 8 (t.length - 8 * (blockCount t.length - 1)) = lastBlockLength t := by
    rw [lastBlockLength, blockCount]
    omega
  simp [byteGroups, List.getLast?_range, hcount, length_byteGroup, hlast]

/-- `n_last` is 1 to 8, and with the count of blocks it gives the length back (R84). -/
theorem lastBlockLength_bounds {t : List Byte} (ht : t ≠ []) :
    1 ≤ lastBlockLength t ∧ lastBlockLength t ≤ 8 ∧
      t.length = 8 * (blockCount t.length - 1) + lastBlockLength t := by
  have hpos := List.length_pos_iff.2 ht
  rw [lastBlockLength, blockCount]
  omega

theorem blocksToBytes_cons (x : Block) (s : List Block) :
    blocksToBytes (x :: s) = (blockToBytes x).toList ++ blocksToBytes s := List.flatMap_cons

/-- Bytes cut into blocks and joined again are the bytes and the padding zeros of the last block (R83, R84). -/
theorem blocksToBytes_bytesToBlocks (t : List Byte) :
    blocksToBytes (bytesToBlocks t) = t ++ List.replicate (8 * blockCount t.length - t.length) 0 := by
  by_cases ht : t = []
  · rw [ht]
    rfl
  · have hpos := List.length_pos_iff.2 ht
    have hrest := blocksToBytes_bytesToBlocks (t.drop 8)
    rw [bytesToBlocks_eq_map_byteGroups] at hrest ⊢
    rw [byteGroups_of_ne_nil ht, List.map_cons, blocksToBytes_cons, hrest,
      toList_blockToBytes_padBlock (List.length_take_le 8 t)]
    by_cases hlong : 8 ≤ t.length
    · have hfull : 8 - (t.take 8).length = 0 := by simp [hlong]
      have hzeros : 8 * blockCount (t.drop 8).length - (t.drop 8).length = 8 * blockCount t.length - t.length := by
        rw [List.length_drop, blockCount, blockCount]
        omega
      rw [hfull, hzeros, List.replicate_zero, List.append_nil, ← List.append_assoc, List.take_append_drop]
    · have hone : blockCount t.length = 1 := by
        rw [blockCount]
        omega
      have htake : t.take 8 = t := List.take_of_length_le (by omega)
      have hdrop : t.drop 8 = [] := List.drop_of_length_le (by omega)
      rw [htake, hdrop, hone]
      simp [blockCount]
termination_by t.length
decreasing_by
  rw [List.length_drop]
  omega

/-- Blocks turned into bytes are cut into the same blocks again. -/
theorem bytesToBlocks_blocksToBytes (s : List Block) : bytesToBlocks (blocksToBytes s) = s := by
  induction s with
  | nil => rfl
  | cons x s ih =>
    rw [bytesToBlocks_eq_map_byteGroups] at ih ⊢
    rw [blocksToBytes_cons, byteGroups_append _ Vector.length_toList, List.map_cons, ih, padBlock_toList,
      bytesToBlock_blockToBytes]

end groups

/-! ### Runs of commands -/

section runs
variable {s t : State}

theorem runInstrs_cons {i : Instr} (is : List Instr) (h : exec i s = .next t) :
    runInstrs (i :: is) s = runInstrs is t :=
  runWords_cons s t ((acceptWord_decoded s (decode_encode i)).trans h)

theorem runInstrs_singleton {i : Instr} (h : exec i s = .next t) : runInstrs [i] s = .next t := runInstrs_cons [] h

theorem runInstrs_append {is : List Instr} (js : List Instr) (h : runInstrs is s = .next t) :
    runInstrs (is ++ js) s = runInstrs js t := by
  simp only [runInstrs, runWords, List.map_append] at h ⊢
  exact runActions_append _ h

end runs

/-- The state with further responses pending. -/
def State.emit (rs : List Response) (s : State) : State := { s with pending := s.pending ++ rs }

section emit
variable (s : State) (rs : List Response)

@[simp] theorem State.emit_toRegisters : (s.emit rs).toRegisters = s.toRegisters := rfl
@[simp] theorem State.emit_pending : (s.emit rs).pending = s.pending ++ rs := rfl

@[simp] theorem State.emit_emit (qs : List Response) : (s.emit rs).emit qs = s.emit (rs ++ qs) :=
  congrArg (fun l => { s with pending := l }) (List.append_assoc s.pending rs qs)

@[simp] theorem State.emit_nil : s.emit [] = s :=
  congrArg (fun l => { s with pending := l }) (List.append_nil s.pending)

theorem answers_emit (r : Response) : Answers s (s.emit [r]) r := ⟨rfl, rfl, rfl⟩

/-- An answer without fault replaces the registers and adds its response. -/
theorem perform_respond (r : Registers) (n : BitVec 4) (data : Block) :
    s.perform (r.respond 0 n data) = { s with toRegisters := r }.emit [⟨0, n, data⟩] := rfl

end emit

/-! ### The packer -/

/-- The state whose packer holds the bytes `y`, at most 8, in its low lanes (R19, R20). -/
def State.packing (y : List Byte) (s : State) : State :=
  { s with toRegisters := s.toRegisters.setPacker (padBlock y) (BitVec.ofNat 4 y.length) }

/-- The responses to `n` PUTB into an empty packer (R85). -/
def putbRun (n : Nat) : List Response := (List.range n).map fun j => ⟨0, BitVec.ofNat 4 (j + 1), 0⟩

/-- The response to PACK when the packer holds the bytes `y` (R86). -/
def packedResponse (y : List Byte) : Response := ⟨0, BitVec.ofNat 4 y.length, padBlock y⟩

/-- The responses to the commands that pack one group (R89). -/
def groupResponses (y : List Byte) : List Response := putbRun y.length ++ [packedResponse y]

section packer
variable (s : State) (y : List Byte)

theorem putbRun_succ (n : Nat) : putbRun (n + 1) = putbRun n ++ [⟨0, BitVec.ofNat 4 (n + 1), 0⟩] := by
  rw [putbRun, List.range_succ, List.map_append]
  rfl

@[simp] theorem State.packing_pk : (s.packing y).pk = padBlock y := rfl
@[simp] theorem State.packing_pkn : (s.packing y).pkn = BitVec.ofNat 4 y.length := rfl
theorem State.packing_emit (rs : List Response) : (s.emit rs).packing y = (s.packing y).emit rs := rfl

/-- A count of at most 8 bytes is its own four-bit value. -/
theorem toNat_count {n : Nat} (hn : n ≤ 8) : (BitVec.ofNat 4 n).toNat = n :=
  Nat.mod_eq_of_lt (Nat.lt_of_le_of_lt hn (by decide))

theorem packing_nil_of_empty {s : State} (hpk : s.pk = 0) (hpkn : s.pkn = 0) : s.packing [] = s := by
  have hregs : s.toRegisters.setPacker s.pk s.pkn = s.toRegisters := rfl
  rw [hpk, hpkn] at hregs
  rw [State.packing, padBlock_nil]
  exact congrArg (fun r : Registers => { s with toRegisters := r }) hregs

theorem pk_eq_zero_of_ok {s : State} (hs : PackerOk s) (hpkn : s.pkn = 0) : s.pk = 0 :=
  eq_zero_of_toNat_lt (toNat_lt_of_lanes_eq_zero hs.right) hpkn

theorem packing_nil_of_ok {s : State} (hs : PackerOk s) (hpkn : s.pkn = 0) : s.packing [] = s :=
  packing_nil_of_empty (pk_eq_zero_of_ok hs hpkn) hpkn

theorem exec_putb_packing (b : Byte) (hy : y.length < 8) :
    exec (.putb b) (s.packing y) =
      .next ((s.packing (y ++ [b])).emit [⟨0, BitVec.ofNat 4 (y.length + 1), 0⟩]) := by
  have hcount : (BitVec.ofNat 4 y.length).toNat = y.length := toNat_count hy.le
  have hlt : (s.packing y).pkn < 8 := BitVec.lt_def.2 (hcount.trans_lt hy)
  have hsucc : BitVec.ofNat 4 y.length + 1 = BitVec.ofNat 4 (y.length + 1) := (BitVec.ofNat_add y.length 1).symm
  rw [execPutb_push _ b hlt, perform_respond, State.packing_pk, State.packing_pkn, hcount, hsucc, setLane_padBlock b hy,
    State.packing, State.packing, List.length_append]
  rfl

/-- From an empty packer the bytes pushed are held in order, each answered with the count (R85). -/
theorem run_putbs (hy : y.length ≤ 8) :
    runInstrs (y.map .putb) (s.packing []) = .next ((s.packing y).emit (putbRun y.length)) := by
  induction y using List.reverseRecOn with
  | nil => exact congrArg Host.Outcome.next (State.emit_nil _).symm
  | append_singleton y b ih =>
    have hlt : y.length < 8 := by simpa using hy
    rw [List.map_append, runInstrs_append _ (ih hlt.le), List.map_singleton, ← State.packing_emit,
      runInstrs_singleton (exec_putb_packing _ y b hlt), State.packing_emit, State.emit_emit, ← putbRun_succ,
      List.length_append, List.length_singleton]

theorem exec_pack_packing : exec .pack (s.packing y) = .next ((s.packing []).emit [packedResponse y]) := by
  rw [exec_pack, packAnswer, perform_respond, State.packing, State.packing, padBlock_nil]
  rfl

theorem run_packGroup (hy : y.length ≤ 8) :
    runInstrs (packGroup y) (s.packing []) = .next ((s.packing []).emit (groupResponses y)) := by
  rw [packGroup, runInstrs_append _ (run_putbs s y hy), ← State.packing_emit,
    runInstrs_singleton (exec_pack_packing _ y), State.packing_emit, State.emit_emit, groupResponses]

/-- Group after group, the packer is empty again and the responses are those of the groups. -/
theorem run_packGroups {gs : List (List Byte)} (hgs : ∀ g ∈ gs, g.length ≤ 8) :
    runInstrs (gs.flatMap packGroup) (s.packing []) = .next ((s.packing []).emit (gs.flatMap groupResponses)) := by
  induction gs generalizing s with
  | nil => exact congrArg Host.Outcome.next (State.emit_nil _).symm
  | cons g gs ih =>
    obtain ⟨hg, hrest⟩ := List.forall_mem_cons.1 hgs
    rw [List.flatMap_cons, runInstrs_append _ (run_packGroup s g hg), ← State.packing_emit, ih _ hrest,
      State.packing_emit, State.emit_emit, List.flatMap_cons]

theorem run_packStream (t : List Byte) :
    runInstrs (packStream t) (s.packing []) = .next ((s.packing []).emit ((byteGroups t).flatMap groupResponses)) := by
  rw [packStream_eq_flatMap_byteGroups]
  exact run_packGroups s fun g hg => (length_of_mem_byteGroups t hg).right

end packer

/-! ### The responses to PACK in a stream -/

theorem packResponses_append {is : List Instr} {rs : List Response} (h : is.length = rs.length) (js : List Instr)
    (qs : List Response) : packResponses (is ++ js) (rs ++ qs) = packResponses is rs ++ packResponses js qs := by
  rw [packResponses, List.zip_append h, List.filterMap_append]
  rfl

theorem packResponses_putbs (y : List Byte) (rs : List Response) : packResponses (y.map .putb) rs = [] := by
  induction y generalizing rs with
  | nil => rfl
  | cons b y ih =>
    cases rs with
    | nil => rfl
    | cons r rs => exact ih rs

theorem length_putbRun (n : Nat) : (putbRun n).length = n := by simp [putbRun]

theorem length_groupResponses (y : List Byte) : (packGroup y).length = (groupResponses y).length := by
  simp [packGroup, groupResponses, length_putbRun]

theorem packResponses_group (y : List Byte) : packResponses (packGroup y) (groupResponses y) = [packedResponse y] := by
  have hlen : (y.map Instr.putb).length = (putbRun y.length).length := by rw [List.length_map, length_putbRun]
  rw [packGroup, groupResponses, packResponses_append hlen, packResponses_putbs]
  rfl

theorem packResponses_groups (gs : List (List Byte)) :
    packResponses (gs.flatMap packGroup) (gs.flatMap groupResponses) = gs.map packedResponse := by
  induction gs with
  | nil => rfl
  | cons g gs ih =>
    rw [List.flatMap_cons, List.flatMap_cons, packResponses_append (length_groupResponses g), packResponses_group, ih]
    rfl

theorem packResponses_packStream (t : List Byte) :
    packResponses (packStream t) ((byteGroups t).flatMap groupResponses) = (byteGroups t).map packedResponse := by
  rw [packStream_eq_flatMap_byteGroups, packResponses_groups]

/-- The DATA of the PACK responses are the blocks of the byte sequence (R89). -/
theorem data_packResponses_packStream (t : List Byte) :
    (packResponses (packStream t) ((byteGroups t).flatMap groupResponses)).map Response.data = bytesToBlocks t := by
  rw [packResponses_packStream, bytesToBlocks_eq_map_byteGroups, List.map_map]
  rfl

/-- The CNT of the PACK responses are the lengths of the groups (R89). -/
theorem cnt_packResponses_packStream (t : List Byte) :
    (packResponses (packStream t) ((byteGroups t).flatMap groupResponses)).map (fun r => r.cnt.toNat) =
      (byteGroups t).map List.length := by
  rw [packResponses_packStream, List.map_map]
  exact List.map_congr_left fun g hg => toNat_count (length_of_mem_byteGroups t hg).right

theorem code_of_mem_groupResponses {y : List Byte} {r : Response} (hr : r ∈ groupResponses y) : r.code = 0 := by
  rcases List.mem_append.1 hr with hr | hr
  · obtain ⟨j, _, rfl⟩ := List.mem_map.1 hr
    rfl
  · rw [List.mem_singleton.1 hr]
    rfl

/-! ### The unpacker -/

/-- The state whose unpacker holds the block `x` with its first `j` bytes read (R21, R22). -/
def State.unpacking (x : Block) (j : Nat) (s : State) : State :=
  { s with toRegisters := s.toRegisters.setUnpacker (x >>> (8 * j)) (BitVec.ofNat 4 (8 - j)) }

/-- The responses to the first `n` GETB after `UNPK x` (R88). -/
def getbRun (x : Block) (n : Nat) : List Response :=
  (List.range n).map fun j => ⟨0, BitVec.ofNat 4 (7 - j), zextByte (lane x j)⟩

/-- The responses to the commands that unpack one block (R90). -/
def unpackResponses (x : Block) : List Response := ⟨0, 8, 0⟩ :: getbRun x 8

section unpacker
variable (s : State) (x : Block)

@[simp] theorem State.unpacking_uq (j : Nat) : (s.unpacking x j).uq = x >>> (8 * j) := rfl
@[simp] theorem State.unpacking_uqn (j : Nat) : (s.unpacking x j).uqn = BitVec.ofNat 4 (8 - j) := rfl
theorem State.unpacking_emit (j : Nat) (rs : List Response) :
    (s.emit rs).unpacking x j = (s.unpacking x j).emit rs := rfl

theorem getbRun_succ (n : Nat) :
    getbRun x (n + 1) = getbRun x n ++ [⟨0, BitVec.ofNat 4 (7 - n), zextByte (lane x n)⟩] := by
  rw [getbRun, List.range_succ, List.map_append]
  rfl

theorem exec_unpk_unpacking : exec (.unpk x) s = .next ((s.unpacking x 0).emit [⟨0, 8, 0⟩]) := by
  rw [State.unpacking, Nat.mul_zero, BitVec.ushiftRight_zero]
  rfl

/-- The next byte is the lowest lane left (R88). -/
theorem exec_getb_unpacking {j : Nat} (hj : j < 8) :
    exec .getb (s.unpacking x j) =
      .next ((s.unpacking x (j + 1)).emit [⟨0, BitVec.ofNat 4 (7 - j), zextByte (lane x j)⟩]) := by
  have hcount : BitVec.ofNat 4 (8 - j) = BitVec.ofNat 4 (7 - j) + 1 := by
    rw [Nat.succ_sub (Nat.le_of_lt_succ hj)]
    exact BitVec.ofNat_add (7 - j) 1
  have hpred : (s.unpacking x j).uqn - 1 = BitVec.ofNat 4 (7 - j) := by
    rw [State.unpacking_uqn, hcount, BitVec.add_sub_cancel]
  have hne : (s.unpacking x j).uqn ≠ 0 := by
    intro h
    have hzero : (BitVec.ofNat 4 (8 - j)).toNat = 0 := congrArg BitVec.toNat h
    rw [toNat_count (Nat.sub_le 8 j)] at hzero
    omega
  have huq : (s.unpacking x j).uq >>> 8 = x >>> (8 * (j + 1)) := (BitVec.shiftRight_add x (8 * j) 8).symm
  rw [execGetb_pop _ hne, perform_respond, hpred, huq, State.unpacking_uq, lane_ushiftRight, Nat.add_zero,
    ← Nat.succ_sub_succ 7 j]
  rfl

/-- After UNPK, `n` GETB read the first `n` bytes in order. -/
theorem run_getbs {n : Nat} (hn : n ≤ 8) :
    runInstrs (List.replicate n .getb) (s.unpacking x 0) = .next ((s.unpacking x n).emit (getbRun x n)) := by
  induction n with
  | zero => exact congrArg Host.Outcome.next (State.emit_nil _).symm
  | succ n ih =>
    rw [List.replicate_succ', runInstrs_append _ (ih (Nat.le_of_succ_le hn)), ← State.unpacking_emit,
      runInstrs_singleton (exec_getb_unpacking _ x hn), State.unpacking_emit, State.emit_emit, getbRun_succ]

theorem run_unpk_getbs {n : Nat} (hn : n ≤ 8) :
    runInstrs (.unpk x :: List.replicate n .getb) s =
      .next ((s.unpacking x n).emit (⟨0, 8, 0⟩ :: getbRun x n)) := by
  rw [runInstrs_cons _ (exec_unpk_unpacking s x), ← State.unpacking_emit, run_getbs _ x hn, State.unpacking_emit,
    State.emit_emit, List.singleton_append]

theorem run_unpackStream (xs : List Block) :
    ∃ uq uqn, runInstrs (unpackStream xs) s =
      .next ({ s with toRegisters := s.toRegisters.setUnpacker uq uqn }.emit (xs.flatMap unpackResponses)) := by
  induction xs generalizing s with
  | nil => exact ⟨s.uq, s.uqn, congrArg Host.Outcome.next (State.emit_nil s).symm⟩
  | cons x xs ih =>
    obtain ⟨uq, uqn, hrest⟩ := ih ((s.unpacking x 8).emit (unpackResponses x))
    refine ⟨uq, uqn, ?_⟩
    rw [unpackStream, List.flatMap_cons, unpackBlock, runInstrs_append _ (run_unpk_getbs s x (Nat.le_refl 8))]
    refine hrest.trans (congrArg Host.Outcome.next ?_)
    rw [List.flatMap_cons, ← State.emit_emit]
    rfl

end unpacker

/-! ### The responses to GETB in a stream -/

theorem getbResponses_append {is : List Instr} {rs : List Response} (h : is.length = rs.length) (js : List Instr)
    (qs : List Response) : getbResponses (is ++ js) (rs ++ qs) = getbResponses is rs ++ getbResponses js qs := by
  rw [getbResponses, List.zip_append h, List.filterMap_append]
  rfl

theorem getbResponses_block (x : Block) : getbResponses (unpackBlock x) (unpackResponses x) = getbRun x 8 := rfl

theorem length_unpackResponses (x : Block) : (unpackBlock x).length = (unpackResponses x).length := rfl

theorem data_getbRun (x : Block) : (getbRun x 8).map Response.data = (blockToBytes x).toList.map zextByte := rfl

theorem data_getbResponses_unpackStream (xs : List Block) :
    (getbResponses (unpackStream xs) (xs.flatMap unpackResponses)).map Response.data =
      (blocksToBytes xs).map zextByte := by
  induction xs with
  | nil => rfl
  | cons x xs ih =>
    rw [unpackStream, List.flatMap_cons, List.flatMap_cons, getbResponses_append (length_unpackResponses x),
      getbResponses_block, List.map_append, data_getbRun, blocksToBytes_cons, List.map_append, ← ih]
    rfl

theorem code_of_mem_unpackResponses {x : Block} {r : Response} (hr : r ∈ unpackResponses x) : r.code = 0 := by
  rcases List.mem_cons.1 hr with rfl | hr
  · rfl
  · obtain ⟨j, _, rfl⟩ := List.mem_map.1 hr
    rfl

/-! ### The obligations of the marshaler -/

/-- Settles O17: a lane is a shift and a mask, and `bytes_to_block` is the OR of its formula by definition. -/
theorem byteFunctionsFollowTheirFormulas : Obligations.ByteFunctionsFollowTheirFormulas := by
  refine ⟨fun x k => ?_, fun _ => rfl⟩
  rw [getElem_fin_blockToBytes]
  exact ⟨rfl, zextByte_lane x k.val⟩

/-- Settles O18: lane by lane. -/
theorem byteMarshalingRoundTrips : Obligations.ByteMarshalingRoundTrips :=
  ⟨bytesToBlock_blockToBytes, blockToBytes_bytesToBlock⟩

/-- Settles O19: lane `k` of the padded block is byte `k`, zero where there is none. -/
theorem padBlockZeroFillsUpperLanes : Obligations.PadBlockZeroFillsUpperLanes := by
  refine ⟨fun y k _ => ?_, padBlock_toList, padBlock_nil, fun _ => padBlock_append_zero⟩
  rw [lane_padBlock y k.isLt]
  split
  · next h => exact List.getD_eq_getElem _ _ h
  · next h => exact List.getD_eq_default _ _ (Nat.le_of_not_lt h)

/-- Settles O20: one group of eight bytes after the other. -/
theorem blocksOfBytesRoundTrip : Obligations.BlocksOfBytesRoundTrip := by
  refine ⟨fun t => ⟨blocksToBytes_bytesToBlocks t, ?_, lastBlockLength_bounds⟩, bytesToBlocks_blocksToBytes⟩
  rw [bytesToBlocks_eq_map_byteGroups, List.length_map, length_byteGroups]

/-- Settles O21, by the cases of PUTB: a full packer faults, and below 8 the push writes lane PKN. -/
theorem putbPushesOneLane : Obligations.PutbPushesOneLane := by
  refine ⟨fun w hop => ?decoding, fun s b hfull => ?full, fun s b hlt => ?push, fun s t b hok hlt ht => ?zeroLane,
    _, rfl, by decide⟩
  case decoding =>
    rw [decode_putb hop, byteOf_operandOf]
  case full =>
    exact ⟨_, execPutb_full s b hfull, answers_perform _, ⟨rfl, rfl, rfl, rfl, rfl, rfl⟩, rfl⟩
  case push =>
    have hsucc : (s.pkn + 1).toNat = s.pkn.toNat + 1 := by bv_omega
    exact ⟨_, execPutb_push s b hlt, answers_perform _, hsucc, fun k hk => lane_setLane s.pk b s.pkn.toNat k hlt hk,
      rfl, rfl, rfl, rfl, rfl, rfl⟩
  case zeroLane =>
    cases (execPutb_push s b hlt).symm.trans ht
    obtain ⟨_, hlanes⟩ := hok
    exact setLane_eq_or b hlt (hlanes ⟨s.pkn.toNat, hlt⟩ (Nat.le_refl _))

/-- Settles O22: what is pushed into an empty packer is held as a padded block, and PACK answers what is held. -/
theorem packTakesThePaddedBlock : Obligations.PackTakesThePaddedBlock := by
  refine ⟨fun _ => decode_pack, fun _ => rfl, fun s y hy hpkn hpk => ?pushed, fun s t ht => ?again, by decide⟩
  case pushed =>
    have hrun := run_putbs s y hy
    rw [packing_nil_of_empty hpk hpkn] at hrun
    exact ⟨_, _, hrun, toNat_count hy, exec_pack_packing (s.emit _) y, answers_emit _ _, padBlock_nil, rfl⟩
  case again =>
    cases ht
    exact ⟨_, exec_pack _, answers_perform _⟩

/-- Settles O24, by the cases of GETB and by what the unpacker holds after UNPK and `j` GETB. -/
theorem getbPopsTheNextByte : Obligations.GetbPopsTheNextByte := by
  refine ⟨fun _ => decode_getb, fun s hempty => ?empty, fun s hne => execGetb_pop s hne, fun s b j => ?nth,
    fun s b => ?ninth, fun s huq huqn => ?exampleWord⟩
  case empty =>
    exact ⟨_, execGetb_empty s hempty, answers_perform _, ⟨rfl, rfl, rfl, rfl, rfl, rfl⟩, rfl⟩
  case nth =>
    rw [getElem_fin_blockToBytes]
    exact ⟨_, _, run_unpk_getbs s b j.isLt.le, exec_getb_unpacking (s.emit _) b j.isLt, answers_emit _ _⟩
  case ninth =>
    exact ⟨_, _, run_unpk_getbs s b (Nat.le_refl 8), BitVec.ushiftRight_eq_zero (Nat.le_refl 64), rfl,
      execGetb_empty _ rfl, answers_perform _⟩
  case exampleWord =>
    have hne : s.uqn ≠ 0 := by
      rw [huqn]
      decide
    refine ⟨_, _, execGetb_pop s hne, answers_perform _, ?_⟩
    simp only [State.perform_toRegisters, Registers.respond_regs, Registers.respond_rsp, Registers.setUnpacker_uq,
      Registers.setUnpacker_uqn, huq, huqn]
    decide

/-- Settles O25: each group leaves the packer empty for the next and is answered by its padded block and its length. -/
theorem packStreamYieldsBlocksOfBytes : Obligations.PackStreamYieldsBlocksOfBytes := by
  refine ⟨fun s y hok hpkn _ hy => ?group, fun s bytes hok hpkn => ?stream⟩
  case group =>
    have hrun := run_packGroup s y hy
    rw [packing_nil_of_ok hok hpkn] at hrun
    exact ⟨_, hrun, (List.append_assoc _ _ _).symm, pk_eq_zero_of_ok hok hpkn, hpkn⟩
  case stream =>
    have hrun := run_packStream s bytes
    rw [packing_nil_of_ok hok hpkn] at hrun
    refine ⟨_, _, hrun, rfl, fun r hr => ?_, data_packResponses_packStream bytes, ?_, fun hne => ?_,
      pk_eq_zero_of_ok hok hpkn, hpkn⟩
    · obtain ⟨g, _, hg⟩ := List.mem_flatMap.1 hr
      exact code_of_mem_groupResponses hg
    · rw [cnt_packResponses_packStream, byteGroups, List.map_map]
      rfl
    · rw [cnt_packResponses_packStream, getLast?_length_byteGroups hne]

/-- Settles O26: after UNPK the GETB responses are the block's lanes, and packing a block's bytes gives it back. -/
theorem unpackStreamYieldsBytesOfBlocks : Obligations.UnpackStreamYieldsBytesOfBlocks := by
  refine ⟨fun s x => ⟨_, run_unpk_getbs s x (Nat.le_refl 8), rfl⟩, fun s blocks => ?stream,
    fun s x hok hpkn => ?repack⟩
  case stream =>
    obtain ⟨uq, uqn, hrun⟩ := run_unpackStream s blocks
    refine ⟨_, _, hrun, rfl, fun r hr => ?_, data_getbResponses_unpackStream blocks⟩
    obtain ⟨x, _, hx⟩ := List.mem_flatMap.1 hr
    exact code_of_mem_unpackResponses hx
  case repack =>
    have hrun := run_packGroup s (blockToBytes x).toList Vector.length_toList.le
    rw [packing_nil_of_ok hok hpkn] at hrun
    refine ⟨_, hrun, ?_⟩
    simp [groupResponses, packedResponse]

/-- Settles O23: the answer to UNPK reads no register, so it is fixed. -/
theorem unpkLoadsTheUnpacker : Obligations.UnpkLoadsTheUnpacker :=
  ⟨fun _ => decode_unpk, fun _ _ => ⟨rfl, idempotentAt_iff.2 ⟨_, rfl, rfl⟩⟩, by decide⟩

end Sys2Proof.Machine

/-! SUPPORT. The family of 42_cbc.md: the sequence functions and how they depend on each block (R92 to R95); START, ENC
and DEC compute them, whatever is interleaved (R96 to R100); the host's procedures on chunks of bytes (R104, R105) and
the chains a host keeps by itself (R108). ENC and DEC are treated as one command with a direction. -/

namespace Sys2Proof.Machine

/-! ### The sequence functions -/

section sequences
variable (K iv : Block)

/-- XOR with the chaining value is undone by XOR with it (R94). -/
theorem cbcDecrypt_cbcEncrypt (P : List Block) : cbcDecrypt (cbcEncrypt P K iv) K iv = P := by
  induction P generalizing iv with
  | nil => rfl
  | cons p ps ih =>
    have hhead : iv ^^^ p ^^^ iv = p := by
      rw [BitVec.xor_comm iv p, BitVec.xor_assoc, BitVec.xor_self, BitVec.xor_zero]
    rw [cbcEncrypt, cbcDecrypt, decryptBlock_encryptBlock, hhead, ih]

/-- The first ciphertext blocks are made of as many plaintext blocks alone (R95). -/
theorem take_cbcEncrypt (P : List Block) (n : Nat) : (cbcEncrypt P K iv).take n = cbcEncrypt (P.take n) K iv := by
  induction P generalizing iv n with
  | nil => rw [List.take_nil, cbcEncrypt, List.take_nil]
  | cons p ps ih =>
    cases n with
    | zero => rfl
    | succ n => rw [cbcEncrypt, List.take_succ_cons, List.take_succ_cons, cbcEncrypt, ih]

/-- All plaintext blocks at once: each decrypted block XORed with the chaining value before it (R93). -/
theorem cbcDecrypt_eq_zipWith (C : List Block) :
    cbcDecrypt C K iv = List.zipWith (· ^^^ ·) (C.map (decryptBlock · K)) (iv :: C) := by
  induction C generalizing iv with
  | nil => rfl
  | cons c cs ih => rw [cbcDecrypt, ih, List.map_cons, List.zipWith_cons_cons]

/-- All ciphertext blocks at once: each is the encryption of a plaintext block XORed with the one before it (R92). -/
theorem map_encryptBlock_zipWith_cbcEncrypt (P : List Block) :
    (List.zipWith (· ^^^ ·) (iv :: cbcEncrypt P K iv) P).map (encryptBlock · K) = cbcEncrypt P K iv := by
  induction P generalizing iv with
  | nil => rfl
  | cons p ps ih => rw [cbcEncrypt, List.zipWith_cons_cons, List.map_cons, ih]

end sequences

/-! ### One block or the starting value changed -/

section dependency
variable (K iv e : Block)

theorem decryptBlock_xor (c : Block) : decryptBlock (c ^^^ e) K = decryptBlock c K ^^^ rotr e 40 := by
  rw [decryptBlock_eq_unrolled, decryptBlock_eq_unrolled, unrolledDecrypt, unrolledDecrypt, rotr_xor]
  ac_rfl

theorem encryptBlock_injective : Function.Injective (encryptBlock · K) := (encryptBlock_bijective K).injective

/-- The starting value reaches the first plaintext block only. -/
theorem getElem?_cbcDecrypt_iv_xor (C : List Block) (j : Nat) :
    (cbcDecrypt C K (iv ^^^ e))[j]? = (cbcDecrypt C K iv)[j]?.map fun p => if j = 0 then p ^^^ e else p := by
  cases C with
  | nil => rfl
  | cons c cs =>
    cases j with
    | zero => exact congrArg some (BitVec.xor_assoc _ iv e).symm
    | succ j => exact Option.map_id'.symm

/-- A changed ciphertext block reaches its own plaintext block and, as chaining value, the next one (R95). -/
theorem getElem?_cbcDecrypt_set_xor (C : List Block) (i : Nat) (hi : i < C.length) (j : Nat) :
    (cbcDecrypt (C.set i (C[i] ^^^ e)) K iv)[j]? =
      (cbcDecrypt C K iv)[j]?.map fun p =>
        if j = i then p ^^^ rotr e 40 else if j = i + 1 then p ^^^ e else p := by
  induction C generalizing iv i j with
  | nil => exact absurd hi (Nat.not_lt_zero i)
  | cons c cs ih =>
    cases i with
    | zero =>
      cases j with
      | zero =>
        refine congrArg some ?_
        show decryptBlock (c ^^^ e) K ^^^ iv = decryptBlock c K ^^^ iv ^^^ rotr e 40
        rw [decryptBlock_xor]
        ac_rfl
      | succ j => simpa [cbcDecrypt] using getElem?_cbcDecrypt_iv_xor K c e cs j
    | succ i =>
      cases j with
      | zero => rfl
      | succ j => simpa [cbcDecrypt] using ih c i (Nat.lt_of_succ_lt_succ hi) j

/-- Two starting values are told apart at every ciphertext block. -/
theorem getElem?_cbcEncrypt_ne_of_iv_ne {iv iv' : Block} (hne : iv ≠ iv') (P : List Block) (i : Nat)
    (hi : i < P.length) : (cbcEncrypt P K iv)[i]? ≠ (cbcEncrypt P K iv')[i]? := by
  induction P generalizing iv iv' i with
  | nil => exact absurd hi (Nat.not_lt_zero i)
  | cons p ps ih =>
    have hhead : encryptBlock (iv ^^^ p) K ≠ encryptBlock (iv' ^^^ p) K := fun h =>
      hne (BitVec.xor_left_inj p |>.1 (encryptBlock_injective K h))
    cases i with
    | zero => exact fun h => hhead (Option.some.inj h)
    | succ i => exact ih hhead i (Nat.lt_of_succ_lt_succ hi)

theorem xor_ne_self {e : Block} (he : e ≠ 0) (x : Block) : x ^^^ e ≠ x := fun h =>
  he (BitVec.xor_right_inj x |>.1 (h.trans BitVec.xor_zero.symm))

/-- A changed plaintext block reaches its own ciphertext block and every later one (R95). -/
theorem getElem?_cbcEncrypt_set_xor_ne {e : Block} (he : e ≠ 0) (P : List Block) (j i : Nat) (hj : j < P.length)
    (hji : j ≤ i) (hi : i < P.length) :
    (cbcEncrypt (P.set j (P[j] ^^^ e)) K iv)[i]? ≠ (cbcEncrypt P K iv)[i]? := by
  induction P generalizing iv j i with
  | nil => exact absurd hj (Nat.not_lt_zero j)
  | cons p ps ih =>
    cases j with
    | zero =>
      have hfirst : cbcEncrypt ((p ^^^ e) :: ps) K iv = cbcEncrypt (p :: ps) K (iv ^^^ e) := by
        have hin : iv ^^^ (p ^^^ e) = iv ^^^ e ^^^ p := by ac_rfl
        rw [cbcEncrypt, cbcEncrypt, hin]
      show (cbcEncrypt ((p ^^^ e) :: ps) K iv)[i]? ≠ _
      rw [hfirst]
      exact getElem?_cbcEncrypt_ne_of_iv_ne K (xor_ne_self he iv) _ i hi
    | succ j =>
      obtain ⟨i, rfl⟩ := Nat.exists_eq_add_of_le' (Nat.le_trans (Nat.succ_pos j) hji)
      exact ih _ j i (Nat.lt_of_succ_lt_succ hj) (Nat.le_of_succ_le_succ hji) (Nat.lt_of_succ_lt_succ hi)

end dependency

/-! ### The chain commands -/

/-- The command that takes a block of the chain in a direction: ENC or DEC (R97, R98). -/
def Direction.command : Direction → Block → Instr
  | .encrypt => .enc
  | .decrypt => .dec

/-- The direction whose command may not be mixed in (R107). -/
def Direction.other : Direction → Direction
  | .encrypt => .decrypt
  | .decrypt => .encrypt

/-- The sequence function of a direction under CORE's key (R92, R93). -/
def Direction.cbc : Direction → List Block → Block → List Block
  | .encrypt, bs, iv => cbcEncrypt bs Config.key iv
  | .decrypt, bs, iv => cbcDecrypt bs Config.key iv

/-- The block a direction answers for the block `b` at the chaining value `iv`. -/
def Direction.output : Direction → Block → Block → Block
  | .encrypt, iv, b => encryptBlock (iv ^^^ b) Config.key
  | .decrypt, iv, b => decryptBlock b Config.key ^^^ iv

/-- The chaining value a direction leaves: in both the ciphertext block. -/
def Direction.nextIv : Direction → Block → Block → Block
  | .encrypt, iv, b => encryptBlock (iv ^^^ b) Config.key
  | .decrypt, _, b => b

/-- The chaining value after a sequence of blocks. -/
def Direction.lastIv (d : Direction) (iv : Block) (bs : List Block) : Block := bs.foldl d.nextIv iv

/-- The state with other chain registers. -/
def State.chaining (iv : Block) (idx : BitVec 32) (s : State) : State :=
  { s with toRegisters := s.toRegisters.setChain iv idx }

/-- The responses that carry a sequence of blocks (R97, R98). -/
def blockResponses (bs : List Block) : List Response := bs.map fun b => ⟨0, 0, b⟩

section chain
variable (d : Direction) (s : State) (iv b : Block) (bs : List Block)

/-- Counting one block and then `n` more (R18). -/
theorem add_one_add_count (idx : BitVec 32) (n : Nat) :
    idx + 1 + BitVec.ofNat 32 n = idx + BitVec.ofNat 32 (n + 1) := by
  rw [Nat.add_comm, BitVec.ofNat_add]
  exact add_assoc idx 1 _

theorem Direction.cbc_cons : d.cbc (b :: bs) iv = d.output iv b :: d.cbc bs (d.nextIv iv b) := by cases d <;> rfl

theorem Direction.cbc_nil : d.cbc [] iv = [] := by cases d <;> rfl

/-- An encrypt chain ends with its last ciphertext block in IV (R99). -/
theorem lastIv_encrypt :
    Direction.encrypt.lastIv iv bs = (cbcEncrypt bs Config.key iv).getLast?.getD iv := by
  induction bs generalizing iv with
  | nil => rfl
  | cons b bs ih => exact (ih _).trans (congrArg (Option.getD · iv) List.getLast?_cons).symm

/-- A decrypt chain ends with its last operand in IV (R100). -/
theorem lastIv_decrypt : Direction.decrypt.lastIv iv bs = bs.getLast?.getD iv := by
  induction bs generalizing iv with
  | nil => rfl
  | cons b bs ih => exact (ih b).trans (congrArg (Option.getD · iv) List.getLast?_cons).symm

theorem commandAnswer_chainCommand (r : Registers) :
    commandAnswer (d.command b) r =
      .ok ((r.setChain (d.nextIv r.iv b) (r.idx + 1)).respond 0 0 (d.output r.iv b)) := by
  cases d <;> rfl

theorem State.chaining_emit (idx : BitVec 32) (rs : List Response) :
    (s.emit rs).chaining iv idx = (s.chaining iv idx).emit rs := rfl

@[simp] theorem data_blockResponses : (blockResponses bs).map Response.data = bs := by
  rw [blockResponses, List.map_map]
  exact List.map_id' bs

/-- ENC and DEC answer their block, advance the chaining value and count (R97, R98). -/
theorem exec_chainCommand (idx : BitVec 32) : exec (d.command b) (s.chaining iv idx) =
    .next ((s.chaining (d.nextIv iv b) (idx + 1)).emit [⟨0, 0, d.output iv b⟩]) :=
  exec_of_answer (s.chaining iv idx) (commandAnswer_chainCommand d b (s.chaining iv idx).toRegisters)

theorem exec_enc_next : exec (.enc b) s = .next { s with
    iv := encryptBlock (s.iv ^^^ b) Config.key, idx := s.idx + 1,
    pending := s.pending ++ [⟨0, 0, encryptBlock (s.iv ^^^ b) Config.key⟩] } :=
  exec_chainCommand .encrypt s s.iv b s.idx

theorem exec_dec_next : exec (.dec b) s = .next { s with
    iv := b, idx := s.idx + 1, pending := s.pending ++ [⟨0, 0, decryptBlock b Config.key ^^^ s.iv⟩] } :=
  exec_chainCommand .decrypt s s.iv b s.idx

/-- With a chaining value of zero DEC answers its decrypted operand as it stands (R98). -/
theorem decAnswer_rsp_of_iv_zero {r : Registers} (h : r.iv = 0) :
    (decAnswer b r).rsp = ⟨0, 0, decryptBlock b Config.key⟩ := by
  simp [decAnswer, h]

theorem exec_start_chaining : exec .start s = .next ((s.chaining Config.ivStart 0).emit [⟨0, 0, 0⟩]) := rfl

/-- The blocks of a chain through one direction's commands: the sequence function is answered and every block counted
(R99, R100). -/
theorem run_chainCommands (idx : BitVec 32) : runInstrs (bs.map d.command) (s.chaining iv idx) =
    .next ((s.chaining (d.lastIv iv bs) (idx + BitVec.ofNat 32 bs.length)).emit (blockResponses (d.cbc bs iv))) := by
  induction bs generalizing s iv idx with
  | nil =>
    have hidx : idx + BitVec.ofNat 32 0 = idx := add_zero idx
    rw [List.length_nil, hidx, d.cbc_nil]
    exact congrArg Host.Outcome.next (State.emit_nil _).symm
  | cons b bs ih =>
    rw [List.map_cons, runInstrs_cons _ (exec_chainCommand d s iv b idx), ← State.chaining_emit, ih,
      State.chaining_emit, State.emit_emit, d.cbc_cons, List.length_cons, add_one_add_count]
    rfl

/-- A whole chain of one direction, from START on (R99, R100). -/
theorem run_chain : runInstrs (.start :: bs.map d.command) s =
    .next ((s.chaining (d.lastIv Config.ivStart bs) (BitVec.ofNat 32 bs.length)).emit
      (⟨0, 0, 0⟩ :: blockResponses (d.cbc bs Config.ivStart))) := by
  rw [runInstrs_cons _ (exec_start_chaining s), ← State.chaining_emit, run_chainCommands, State.chaining_emit,
    State.emit_emit, zero_add, List.singleton_append]

end chain

/-! ### Chains with other words between -/

/-- The block a command takes if it is the direction's chain command. -/
def Direction.blockOf? : Direction → Instr → Option Block
  | .encrypt, .enc p => some p
  | .decrypt, .dec c => some c
  | _, _ => none

/-- The block a word gives to the direction's chain command. -/
def Direction.operand? (d : Direction) (w : CmdWord) : Option Block :=
  match decode w with
  | .ok i => d.blockOf? i
  | .error _ => none

/-- The operands a word stream gives to a direction's command. -/
def Direction.operands : Direction → List CmdWord → List Block
  | .encrypt => encOperands
  | .decrypt => decOperands

/-- The DATA of the responses to a direction's command. -/
def Direction.results : Direction → List CmdWord → List Response → List Block
  | .encrypt => encResults
  | .decrypt => decResults

/-- A word that may stand between the commands of a chain of direction `d`: any but START and the other direction's
command (R99, R100). -/
def Direction.Admits (d : Direction) (w : CmdWord) : Prop :=
  decode w ≠ .ok .start ∧ ∀ b, decode w ≠ .ok (d.other.command b)

section streams
variable (d : Direction) {w : CmdWord} (ws : List CmdWord) (rs : List Response)

theorem operands_eq_filterMap : d.operands ws = ws.filterMap d.operand? := by
  cases d
  all_goals
    refine List.filterMap_congr fun w _ => ?_
    simp only [Direction.operand?]
    cases decode w with
    | ok i => cases i <;> rfl
    | error => rfl

theorem results_eq_filterMap :
    d.results ws rs = (ws.zip rs).filterMap fun x => (d.operand? x.1).map fun _ => x.2.data := by
  cases d
  all_goals
    refine List.filterMap_congr fun ⟨w, r⟩ _ => ?_
    simp only [Direction.operand?]
    cases decode w with
    | ok i => cases i <;> rfl
    | error => rfl

theorem operand?_eq_some_iff {b : Block} : d.operand? w = some b ↔ decode w = .ok (d.command b) := by
  rw [Direction.operand?]
  cases decode w with
  | ok i => cases d <;> cases i <;> simp [Direction.blockOf?, Direction.command]
  | error => simp

variable {d} {b : Block} (r : Response)

theorem operands_nil : d.operands [] = [] := by cases d <;> rfl

theorem results_nil : d.results [] rs = [] := by cases d <;> rfl

theorem operands_cons_of_some (h : d.operand? w = some b) : d.operands (w :: ws) = b :: d.operands ws := by
  rw [operands_eq_filterMap, operands_eq_filterMap, List.filterMap_cons_some h]

theorem operands_cons_of_none (h : d.operand? w = none) : d.operands (w :: ws) = d.operands ws := by
  rw [operands_eq_filterMap, operands_eq_filterMap, List.filterMap_cons_none h]

theorem results_cons_of_some (h : d.operand? w = some b) :
    d.results (w :: ws) (r :: rs) = r.data :: d.results ws rs := by
  rw [results_eq_filterMap, results_eq_filterMap, List.zip_cons_cons, List.filterMap_cons, h, Option.map_some]

theorem results_cons_of_none (h : d.operand? w = none) : d.results (w :: ws) (r :: rs) = d.results ws rs := by
  rw [results_eq_filterMap, results_eq_filterMap, List.zip_cons_cons, List.filterMap_cons, h, Option.map_none]

/-- A word that may stand in a chain either is the direction's command or keeps the chain registers (R99, R100). -/
theorem wordAnswer_of_admitted {r : Registers} {a : Answer} (hw : d.Admits w) (h : wordAnswer w r = .ok a) :
    (∃ b, d.operand? w = some b ∧ a.rsp.data = d.output r.iv b ∧ a.regs.iv = d.nextIv r.iv b ∧
      a.regs.idx = r.idx + 1) ∨ (d.operand? w = none ∧ a.regs.iv = r.iv ∧ a.regs.idx = r.idx) := by
  obtain ⟨hstart, hother⟩ := hw
  cases ho : d.operand? w with
  | some b =>
    have hd := (operand?_eq_some_iff d).1 ho
    simp only [wordAnswer, hd, commandAnswer_chainCommand] at h
    cases h
    exact .inl ⟨b, rfl, rfl, rfl, rfl⟩
  | none =>
    have hcommand (b : Block) : decode w ≠ .ok (d.command b) := fun hd => by
      rw [(operand?_eq_some_iff d).2 hd] at ho
      cases ho
    refine .inr ⟨rfl, ?_⟩
    cases hd : decode w with
    | error e =>
      simp only [wordAnswer, hd] at h
      cases h
      exact ⟨rfl, rfl⟩
    | ok i =>
      simp only [wordAnswer, hd] at h
      simp only [hd, ne_eq, Except.ok.injEq] at hstart hother hcommand
      obtain ⟨hframe, _⟩ := commandAnswer_frame h
      cases d with
      | encrypt => exact hframe hcommand hother hstart
      | decrypt => exact hframe hother hcommand hstart

/-- The words of a chain, whatever is interleaved: the responses to the direction's command carry its sequence function
of the operands, from the chaining value and the count there are (R99, R100). -/
theorem run_chainStream (s : State) (hs : s.pkn.toNat ≤ 8) (hws : ∀ w ∈ ws, d.Admits w) :
    ∃ t rs, runWords ws s = .next t ∧ t.pending = s.pending ++ rs ∧ rs.length = ws.length ∧
      d.results ws rs = d.cbc (d.operands ws) s.iv ∧ t.idx = s.idx + BitVec.ofNat 32 (d.operands ws).length ∧
      t.iv = d.lastIv s.iv (d.operands ws) := by
  induction ws generalizing s with
  | nil =>
    refine ⟨s, [], rfl, (List.append_nil _).symm, rfl, ?_⟩
    rw [operands_nil, results_nil, d.cbc_nil]
    exact ⟨rfl, (add_zero s.idx).symm, rfl⟩
  | cons w ws ih =>
    obtain ⟨hw, hrest⟩ := List.forall_mem_cons.1 hws
    obtain ⟨a, ha, hpkn⟩ := wordAnswer_completes w hs
    have hword : acceptWord w s = .next (s.perform a) := by
      rw [acceptWord_eq_performOr_wordAnswer, ha, State.performOr_ok]
    obtain ⟨t, rs, hrun, hpending, hlen, hresults, hidx, hiv⟩ := ih (s.perform a) hpkn hrest
    refine ⟨t, a.rsp :: rs, (runWords_cons s _ hword).trans hrun, ?_, congrArg Nat.succ hlen, ?_⟩
    · rw [hpending, State.perform_pending, List.append_assoc, List.singleton_append]
    · rw [State.perform_toRegisters] at hresults hidx hiv
      rcases wordAnswer_of_admitted hw ha with ⟨b, ho, hdata, hiv', hidx'⟩ | ⟨ho, hiv', hidx'⟩
      · rw [operands_cons_of_some ws ho, results_cons_of_some ws rs a.rsp ho, hresults, hdata, hidx, hidx', hiv, hiv',
          d.cbc_cons, List.length_cons, add_one_add_count]
        exact ⟨rfl, rfl, rfl⟩
      · rw [operands_cons_of_none ws ho, results_cons_of_none ws rs a.rsp ho, ← hiv', ← hidx']
        exact ⟨hresults, hidx, hiv⟩

end streams

/-! ### The beginning of a chain -/

section begins
variable {s : State}

/-- START and reset both leave the starting value in IV and no block counted, and keep PKN at most 8 (R31, R96). -/
theorem performAction_begins_chain {first : HostAction} (hs : s.pkn.toNat ≤ 8)
    (hfirst : first = .reset ∨ ∃ w, first = .command w ∧ decode w = .ok .start) :
    ∃ t, performAction first s = .next t ∧ t.iv = Config.ivStart ∧ t.idx = 0 ∧ t.pkn.toNat ≤ 8 := by
  rcases hfirst with rfl | ⟨w, rfl, hw⟩
  · exact ⟨s.assertReset, rfl, rfl, rfl, Nat.zero_le 8⟩
  · exact ⟨_, (acceptWord_decoded s hw).trans (exec_start_chaining s), rfl, rfl, hs⟩

/-- From START or reset on, the words of a chain compute the direction's sequence function, whatever is interleaved
(R99, R100). -/
theorem run_chainStream_from_start (d : Direction) {first : HostAction} {ws : List CmdWord} (hs : RegistersOk s)
    (hfirst : first = .reset ∨ ∃ w, first = .command w ∧ decode w = .ok .start) (hws : ∀ w ∈ ws, d.Admits w) :
    ∃ t u rs, performAction first s = .next t ∧ runWords ws t = .next u ∧ u.pending = t.pending ++ rs ∧
      rs.length = ws.length ∧ d.results ws rs = d.cbc (d.operands ws) Config.ivStart ∧
      u.idx = BitVec.ofNat 32 (d.operands ws).length ∧ u.iv = d.lastIv Config.ivStart (d.operands ws) := by
  obtain ⟨t, ht, hiv, hidx, hpkn⟩ := performAction_begins_chain (registersOk_iff_legal.1 hs).pkn_le hfirst
  obtain ⟨u, rs, hrun, hpending, hlen, hresults, hcount, hlast⟩ := run_chainStream ws t hpkn hws
  rw [hiv] at hresults hlast
  rw [hidx, zero_add] at hcount
  exact ⟨t, u, rs, ht, hrun, hpending, hlen, hresults, hcount, hlast⟩

end begins

/-! ### Chains kept by the host -/

/-- Commands that answer a function of their operand and change no register. -/
theorem run_stateless {command : Block → Instr} {f : Block → Block}
    (h : ∀ (s : State) (b : Block), exec (command b) s = .next (s.emit [⟨0, 0, f b⟩])) (s : State)
    (bs : List Block) : runInstrs (bs.map command) s = .next (s.emit (blockResponses (bs.map f))) := by
  induction bs generalizing s with
  | nil => exact congrArg Host.Outcome.next (State.emit_nil s).symm
  | cons b bs ih =>
    rw [List.map_cons, runInstrs_cons _ (h s b), ih, State.emit_emit]
    rfl

/-! ### The host's procedures -/

section procedures
variable {s t : State}

/-- Commands that only add responses are collected with just those. -/
theorem collect_emit {is : List Instr} {rs : List Response} (h : runInstrs is s = .next (t.emit rs))
    (ht : t.pending = s.pending) : collect is s = some (t.emit rs, rs) := by
  rw [collect_of_run s _ h, State.emit_pending, ht, List.drop_left]

theorem length_blocksToBytes (xs : List Block) : (blocksToBytes xs).length = 8 * xs.length := by
  simp [blocksToBytes, Nat.mul_comm]

/-- Every group is full exactly when the bytes are whole blocks (R84). -/
theorem length_mod_eight_iff (bytes : List Byte) :
    bytes.length % 8 = 0 ↔ ∀ g ∈ byteGroups bytes, g.length = 8 := by
  constructor
  · intro hwhole g hg
    obtain ⟨i, hi, rfl⟩ := List.mem_map.1 hg
    rw [List.mem_range, blockCount] at hi
    rw [length_byteGroup]
    omega
  · intro hfull
    by_contra hpart
    have hmem : bytes.length / 8 ∈ List.range (blockCount bytes.length) := by
      rw [List.mem_range, blockCount]
      omega
    have hlast := hfull _ (List.mem_map_of_mem hmem)
    rw [length_byteGroup] at hlast
    omega

/-- No PACK of a byte stream answers an empty block. -/
theorem packedBlocks_byteGroups (bytes : List Byte) :
    packedBlocks ((byteGroups bytes).map packedResponse) = (byteGroups bytes).map packedResponse := by
  refine List.filter_eq_self.2 fun r hr => ?_
  obtain ⟨g, hg, rfl⟩ := List.mem_map.1 hr
  obtain ⟨hpos, hle⟩ := length_of_mem_byteGroups bytes hg
  rw [bne_iff_ne]
  intro hzero
  have hlen : g.length = 0 := (toNat_count hle).symm.trans (congrArg BitVec.toNat hzero)
  omega

/-- The check on ciphertext passes exactly for whole blocks, and then gives the blocks of the bytes (R91, R105). -/
theorem ciphertextBlocks_packStream (bytes : List Byte) :
    ciphertextBlocks ((byteGroups bytes).map packedResponse) =
      if bytes.length % 8 = 0 then some (bytesToBlocks bytes) else none := by
  have hcnt : (((byteGroups bytes).map packedResponse).all fun r => r.cnt == 8) = true ↔ bytes.length % 8 = 0 := by
    rw [length_mod_eight_iff, List.all_eq_true, List.forall_mem_map]
    refine forall₂_congr fun g hg => ?_
    obtain ⟨_, hle⟩ := length_of_mem_byteGroups bytes hg
    rw [beq_iff_eq, ← BitVec.toNat_inj]
    show (BitVec.ofNat 4 g.length).toNat = 8 ↔ g.length = 8
    rw [toNat_count hle]
  have hdata : ((byteGroups bytes).map packedResponse).map Response.data = bytesToBlocks bytes := by
    rw [bytesToBlocks_eq_map_byteGroups, List.map_map]
    rfl
  rw [ciphertextBlocks, packedBlocks_byteGroups, hdata]
  exact if_congr hcnt rfl rfl

theorem collect_packStream (hs : PackerOk s) (hpkn : s.pkn = 0) (bytes : List Byte) :
    collect (packStream bytes) s =
      some (s.emit ((byteGroups bytes).flatMap groupResponses), (byteGroups bytes).flatMap groupResponses) := by
  have hrun := run_packStream s bytes
  rw [packing_nil_of_ok hs hpkn] at hrun
  exact collect_emit hrun rfl

/-- What a host collects from the commands of a chain: the direction's sequence function from the chaining value there
is. -/
theorem collect_chainCommands (d : Direction) (s : State) (bs : List Block) :
    collect (bs.map d.command) s =
      some ((s.chaining (d.lastIv s.iv bs) (s.idx + BitVec.ofNat 32 bs.length)).emit (blockResponses (d.cbc bs s.iv)),
        blockResponses (d.cbc bs s.iv)) :=
  collect_emit (run_chainCommands d s s.iv bs s.idx) rfl

/-- The bytes read out of the unpacker are the bytes of the blocks (R90). -/
theorem collect_unpackStream (s : State) (xs : List Block) :
    ∃ uq uqn rs, collect (unpackStream xs) s =
        some ({ s with toRegisters := s.toRegisters.setUnpacker uq uqn }.emit rs, rs) ∧
      (getbResponses (unpackStream xs) rs).map (fun r => byteOf r.data) = blocksToBytes xs := by
  obtain ⟨uq, uqn, hrun⟩ := run_unpackStream s xs
  refine ⟨uq, uqn, _, collect_emit hrun rfl, ?_⟩
  have hbyte : byteOf ∘ zextByte = id := funext byteOf_setWidth
  have hdata := congrArg (List.map byteOf) (data_getbResponses_unpackStream xs)
  rwa [List.map_map, List.map_map, hbyte, List.map_id] at hdata

/-- Ciphertext of whole blocks is decrypted as one chain, joined and cut (R105). -/
theorem hostDecrypt_of_whole (hs : PackerOk s) (hpkn : s.pkn = 0) {cipher : List Byte} (length : Nat)
    (hwhole : cipher.length % 8 = 0) :
    ∃ t, hostDecrypt cipher length s =
      .chunk ((blocksToBytes (cbcDecrypt (bytesToBlocks cipher) Config.key Config.ivStart)).take length) t := by
  have hchain (m : State) (cs : List Block) : collect (decryptChain cs) m = _ :=
    collect_emit (run_chain .decrypt m cs) rfl
  simp only [hostDecrypt, collect_packStream hs hpkn, packResponses_packStream, ciphertextBlocks_packStream, hwhole,
    if_true, hchain, List.drop_succ_cons, List.drop_zero, data_blockResponses]
  exact ⟨_, rfl⟩

/-- Bytes that are not whole blocks are reported as malformed, and only the packer's commands were issued (R91). -/
theorem hostDecrypt_of_partial (hs : PackerOk s) (hpkn : s.pkn = 0) {cipher : List Byte} (length : Nat)
    (hpart : cipher.length % 8 ≠ 0) :
    hostDecrypt cipher length s = .malformed (s.emit ((byteGroups cipher).flatMap groupResponses)) := by
  simp only [hostDecrypt, collect_packStream hs hpkn, packResponses_packStream, ciphertextBlocks_packStream, hpart,
    if_false]

/-- The host's encryption gives the ciphertext bytes and leaves the packer as it was, empty (R104). -/
theorem hostEncrypt_gives_ciphertext (hs : PackerOk s) (hpkn : s.pkn = 0) (chunk : List Byte) :
    ∃ t, hostEncrypt chunk s = some (t, ciphertextBytes chunk, chunk.length) ∧ t.pk = s.pk ∧ t.pkn = s.pkn := by
  have hstart := collect_emit (runInstrs_singleton (exec_start_chaining s)) rfl
  have hpack := collect_packStream (s := (s.chaining Config.ivStart 0).emit [⟨0, 0, 0⟩]) hs hpkn chunk
  have henc (m : State) (bs : List Block) : collect (bs.map .enc) m = _ := collect_chainCommands .encrypt m bs
  choose uq uqn rs hunpack hbytes using collect_unpackStream
  simp only [hostEncrypt, hstart, Option.bind_some, Option.map_some, hpack, data_packResponses_packStream, henc,
    data_blockResponses, hunpack, hbytes]
  exact ⟨_, rfl, rfl, rfl⟩

/-- The ciphertext bytes of a chunk are whole blocks. -/
theorem length_ciphertextBytes_mod (chunk : List Byte) : (ciphertextBytes chunk).length % 8 = 0 := by
  rw [ciphertextBytes, length_blocksToBytes, Nat.mul_mod_right]

/-- Decrypting a chunk's ciphertext bytes as one chain gives the chunk's blocks (R94). -/
theorem cbcDecrypt_bytesToBlocks_ciphertextBytes (chunk : List Byte) :
    cbcDecrypt (bytesToBlocks (ciphertextBytes chunk)) Config.key Config.ivStart = bytesToBlocks chunk := by
  rw [ciphertextBytes, bytesToBlocks_blocksToBytes, cbcDecrypt_cbcEncrypt]

end procedures

/-! ### The obligations of the CBC engine -/

/-- Settles O27: the chaining XOR of decryption undoes that of encryption, block after block. -/
theorem cbcRoundTrips : Obligations.CbcRoundTrips := fun P K iv => cbcDecrypt_cbcEncrypt K iv P

/-- Settles O28: decryption passes a ciphertext difference to two blocks; encryption passes a plaintext difference on in
every chaining value, since it is injective. -/
theorem chainDependencyIsExact : Obligations.ChainDependencyIsExact :=
  ⟨fun C K iv e i hi _ => getElem?_cbcDecrypt_set_xor K iv e C i hi, fun P K iv => take_cbcEncrypt K iv P,
    fun P K iv _ j i hj hji hi he => getElem?_cbcEncrypt_set_xor_ne K iv he P j i hj hji hi⟩

/-- Settles O30: ENC's answer by its definition; encryption is injective, so equal results mean equal chaining
values. -/
theorem encAdvancesTheChain : Obligations.EncAdvancesTheChain := by
  have hresult {s t : State} {p c : Block} (ht : exec (.enc p) s = .next t) (hc : Answers s t ⟨0, 0, c⟩) :
      c = encryptBlock (s.iv ^^^ p) Config.key := by
    cases (exec_enc s p).symm.trans ht
    exact (congrArg Response.data (rsp_eq_of_answers_perform hc)).symm
  refine ⟨fun _ => decode_enc, fun s p => ⟨exec_enc_next s p, not_idempotentAt_of_chain (.inl ⟨p, rfl⟩)⟩,
    fun s p hiv => ?zeroIv, fun s => ?operandIv, fun s t u p c c' ht hc hu hc' => ?repeated,
    fun s t p hidx ht => ?wrap, fun s hiv hidx => ?exampleWord⟩
  case zeroIv => exact ⟨_, exec_enc s p, encAnswer_rsp_of_iv_zero p hiv ▸ answers_perform _⟩
  case operandIv =>
    have hblock : encryptBlock (s.iv ^^^ s.iv) Config.key = 0x442E74152AA82650 := by
      rw [BitVec.xor_self]
      decide
    exact ⟨_, exec_enc s s.iv, hblock ▸ answers_perform (encAnswer s.iv s.toRegisters)⟩
  case repeated =>
    rw [hresult ht hc, hresult hu hc', (encryptBlock_injective Config.key).eq_iff, BitVec.xor_left_inj]
  case wrap =>
    cases (exec_enc s p).symm.trans ht
    exact congrArg (· + 1) hidx
  case exampleWord =>
    have hblock : encryptBlock (s.iv ^^^ 0x6369757120656854) Config.key = 0x2146207643DD5770 := by
      rw [hiv]
      decide
    have hword := congrArg (fun c => Response.toWord ⟨0, 0, c⟩) hblock
    exact ⟨_, _, exec_enc s _, answers_perform _, hword.trans (by decide), hblock, congrArg (· + 1) hidx⟩

/-- Settles O31: DEC's answer by its definition; the operand it leaves in IV is what the next DEC XORs with. -/
theorem decAdvancesTheChain : Obligations.DecAdvancesTheChain := by
  refine ⟨fun _ => decode_dec, fun s c => ⟨exec_dec_next s c, not_idempotentAt_of_chain (.inr ⟨c, rfl⟩)⟩,
    fun s c hiv => ⟨_, exec_dec s c, decAnswer_rsp_of_iv_zero c hiv ▸ answers_perform _⟩,
    fun s c => ⟨_, _, exec_dec s c, exec_dec _ c, answers_perform _, answers_perform _⟩, fun s hiv hidx => ?exampleWord⟩
  case exampleWord =>
    have hblock : decryptBlock 0x2146207643DD5770 Config.key ^^^ s.iv = 0x6369757120656854 := by
      rw [hiv]
      decide
    have hword := congrArg (fun p => Response.toWord ⟨0, 0, p⟩) hblock
    exact ⟨_, _, exec_dec s _, answers_perform _, hword.trans (by decide), rfl, congrArg (· + 1) hidx⟩

/-- Settles O34: the packer forms the blocks of the bytes, the chain commands compute the sequence functions, and these
invert each other; the check on ciphertext passes exactly for whole blocks. -/
theorem chunkIsRecovered : Obligations.ChunkIsRecovered := by
  refine ⟨fun chunk => ?functions, fun s chunk hs hpkn => ?procedures, fun s cipher length hs hpkn => ?ciphertext⟩
  case functions =>
    rw [recoverChunk, cbcDecrypt_cbcEncrypt, blocksToBytes_bytesToBlocks, List.take_left]
  case procedures =>
    obtain ⟨t, ht, hpk', hpkn'⟩ := hostEncrypt_gives_ciphertext hs hpkn chunk
    have hok : PackerOk t := by
      rwa [PackerOk, hpk', hpkn']
    have hdecrypt (length : Nat) :=
      hostDecrypt_of_whole hok (hpkn'.trans hpkn) length (length_ciphertextBytes_mod chunk)
    simp only [cbcDecrypt_bytesToBlocks_ciphertextBytes, blocksToBytes_bytesToBlocks] at hdecrypt
    obtain ⟨u, hu⟩ := hdecrypt chunk.length
    obtain ⟨v, hv⟩ := hdecrypt (8 * blockCount chunk.length)
    rw [List.take_left] at hu
    rw [List.take_of_length_le] at hv
    · exact ⟨t, u, v, ht, hu, hv⟩
    · rw [List.length_append, List.length_replicate, blockCount]
      omega
  case ciphertext =>
    split
    · next hwhole => exact hostDecrypt_of_whole hs hpkn length hwhole
    · next hpart => exact ⟨_, hostDecrypt_of_partial hs hpkn length hpart, rfl, rfl⟩

/-- Settles O32, by induction on the words: each is ENC and advances the chain, or keeps IV and IDX. -/
theorem encStreamComputesCbcEncrypt : Obligations.EncStreamComputesCbcEncrypt := by
  intro s first ws hs hfirst hws
  rw [← lastIv_encrypt]
  exact run_chainStream_from_start .encrypt hs hfirst hws

/-- Settles O33: the same induction for DEC, and the round trip of the sequence functions. -/
theorem decStreamComputesCbcDecrypt : Obligations.DecStreamComputesCbcDecrypt := by
  constructor
  · intro s first ws hs hfirst hws
    rw [← lastIv_decrypt]
    exact run_chainStream_from_start .decrypt hs hfirst hws
  · intro s P
    refine ⟨_, _, blockResponses _, blockResponses _, run_chain .encrypt s P, rfl, run_chain .decrypt _ _, rfl, ?_⟩
    rw [data_blockResponses, data_blockResponses]
    exact cbcDecrypt_cbcEncrypt Config.key Config.ivStart P

/-- Settles O35: ENCB and DECB change no register, and the chaining XOR of the host is that of the sequence
functions. -/
theorem hostCanChainWithStatelessCommands : Obligations.HostCanChainWithStatelessCommands := by
  intro s P C iv
  refine ⟨⟨_, _, run_stateless exec_encb_next s _, rfl, rfl, ?_⟩, _, _, run_stateless exec_decb_next s C, rfl, rfl, ?_⟩
  · rw [data_blockResponses]
    exact map_encryptBlock_zipWith_cbcEncrypt Config.key iv P
  · rw [data_blockResponses, cbcDecrypt_eq_zipWith]

/-- Settles O29: START's answer reads no register, so it is fixed, and writes the reset values. -/
theorem startBeginsAChain : Obligations.StartBeginsAChain :=
  ⟨fun _ => decode_start, fun _ => ⟨exec_start_chaining _, idempotentAt_iff.2 ⟨_, rfl, rfl⟩⟩,
    ⟨_, exec_start _, rfl⟩, rfl, by decide⟩

end Sys2Proof.Machine

/-! SUPPORT. The family of 43_system.md: the status word is put together from four registers and shows each of them
(R27, R109); CLRF empties FLT, which every fault fills with its own code when it is empty (R110, R119). -/

namespace Sys2Proof.Machine

/-! ### The status word -/

section status
variable (r : Registers)

theorem statusWord_idx : (statusWord r).extractLsb' 0 32 = r.idx := BitVec.extractLsb'_append_eq_right

theorem statusWord_pkn : (statusWord r).extractLsb' 32 4 = r.pkn :=
  calc (statusWord r).extractLsb' 32 4 = (0#21 ++ r.flt ++ r.uqn ++ r.pkn).extractLsb' 0 4 :=
        BitVec.extractLsb'_append_eq_of_le (Nat.le_refl 32)
    _ = r.pkn := BitVec.extractLsb'_append_eq_right

theorem statusWord_uqn : (statusWord r).extractLsb' 36 4 = r.uqn :=
  calc (statusWord r).extractLsb' 36 4 = (0#21 ++ r.flt ++ r.uqn ++ r.pkn).extractLsb' 4 4 :=
        BitVec.extractLsb'_append_eq_of_le (by decide)
    _ = (0#21 ++ r.flt ++ r.uqn).extractLsb' 0 4 := BitVec.extractLsb'_append_eq_of_le (Nat.le_refl 4)
    _ = r.uqn := BitVec.extractLsb'_append_eq_right

/-- The bits of the status word above UQN. -/
theorem statusWord_extractLsb'_of_le {start len : Nat} (h : 40 ≤ start) :
    (statusWord r).extractLsb' start len = (0#21 ++ r.flt).extractLsb' (start - 40) len :=
  calc (statusWord r).extractLsb' start len = (0#21 ++ r.flt ++ r.uqn ++ r.pkn).extractLsb' (start - 32) len :=
        BitVec.extractLsb'_append_eq_of_le (by omega)
    _ = (0#21 ++ r.flt ++ r.uqn).extractLsb' (start - 36) len := BitVec.extractLsb'_append_eq_of_le (by omega)
    _ = (0#21 ++ r.flt).extractLsb' (start - 40) len := BitVec.extractLsb'_append_eq_of_le (by omega)

theorem statusWord_flt : (statusWord r).extractLsb' 40 3 = r.flt :=
  (statusWord_extractLsb'_of_le r (Nat.le_refl 40)).trans BitVec.extractLsb'_append_eq_right

theorem statusWord_unused : (statusWord r).extractLsb' 43 21 = 0 :=
  (statusWord_extractLsb'_of_le r (by decide)).trans BitVec.extractLsb'_append_eq_left

end status

/-! ### The next states of STAT and CLRF -/

section system
variable (s : State)

theorem exec_stat_next :
    exec .stat s = .next { s with pending := s.pending ++ [⟨0, 0, statusWord s.toRegisters⟩] } :=
  congrArg Host.Outcome.next (perform_respond_sameRegisters s 0 _)

theorem exec_clrf_next : exec .clrf s = .next { s with flt := 0, pending := s.pending ++ [⟨0, 0, 0⟩] } := rfl

theorem idempotentAt_stat : IdempotentAt .stat s := idempotentAt_iff.2 ⟨_, rfl, rfl⟩

theorem idempotentAt_clrf : IdempotentAt .clrf s := idempotentAt_iff.2 ⟨_, rfl, rfl⟩

end system

/-! ### Fault codes come from the fault entry -/

section faults
variable {r : Registers} {a : Answer}

theorem recordFault_zero (c : FaultCode) : recordFault 0 c = c.bits := if_pos rfl

/-- A command answers with a fault code only by the fault entry: PUTB on a full packer, GETB on an empty unpacker. -/
theorem commandAnswer_eq_raise {i : Instr} (h : commandAnswer i r = .ok a) (hcode : a.rsp.code ≠ 0) :
    ∃ c, a = r.raise c := by
  obtain ⟨_, _, _, _, hother⟩ := commandAnswer_frame h
  cases i with
  | putb b =>
    rcases pkn_cases r.pkn with hfull | hlt | hbeyond
    · cases (putbAnswer_full r b hfull).symm.trans h
      exact ⟨.packOverflow, rfl⟩
    · cases (putbAnswer_push r b hlt).symm.trans h
      exact absurd rfl hcode
    · cases (putbAnswer_beyond r b hbeyond).symm.trans h
  | getb =>
    cases h
    by_cases hempty : r.uqn = 0
    · exact ⟨.unpackEmpty, getbAnswer_empty r hempty⟩
    · rw [getbAnswer_pop r hempty] at hcode
      exact absurd rfl hcode
  | _ => exact absurd (hother (by simp) (by simp)) hcode

/-- A word answers with a fault code only by the fault entry (R112, R119). -/
theorem wordAnswer_eq_raise {w : CmdWord} (h : wordAnswer w r = .ok a) (hcode : a.rsp.code ≠ 0) :
    ∃ c, a = r.raise c := by
  cases hd : decode w with
  | ok i => exact commandAnswer_eq_raise (by simpa only [wordAnswer, hd] using h) hcode
  | error e =>
    simp only [wordAnswer, hd] at h
    exact ⟨.illegalOp, (Except.ok.inj h).symm⟩

/-- With FLT empty, a faulting word leaves its own code in it (R119). -/
theorem flt_eq_code_of_fault {w : CmdWord} {t u : State} {x : Response} (hflt : t.flt = 0)
    (h : acceptWord w t = .next u) (hx : Answers t u x) (hcode : x.code ≠ 0) : u.flt = x.code := by
  obtain ⟨a, ha, rfl⟩ := acceptWord_next h
  cases rsp_eq_of_answers_perform hx
  obtain ⟨c, rfl⟩ := wordAnswer_eq_raise ha hcode
  calc recordFault t.flt c = recordFault 0 c := by rw [hflt]
    _ = c.bits := recordFault_zero c

end faults

/-! ### The obligations of the system commands -/

/-- Settles O36: the status word has its four fields, and STAT's answer keeps every register. -/
theorem statShowsTheStatusWord : Obligations.StatShowsTheStatusWord := by
  refine ⟨fun _ => decode_stat, fun s => ?fields, rfl, fun s hidx hpkn huqn hflt => ?exampleWord⟩
  case fields =>
    exact ⟨_, exec_stat_next s, idempotentAt_stat s, statusWord_idx _, statusWord_pkn _, statusWord_uqn _,
      statusWord_flt _, statusWord_unused _, rfl⟩
  case exampleWord =>
    rw [statusWord, hidx, hpkn, huqn, hflt]
    rfl

/-- Settles O37: CLRF leaves FLT empty, so the next fault is recorded with its own code. -/
theorem clrfClearsTheFaultRegister : Obligations.ClrfClearsTheFaultRegister := by
  refine ⟨fun _ => decode_clrf, fun s => ⟨exec_clrf_next s, idempotentAt_clrf s⟩, ?_, rfl⟩
  intro w s t u x ht hu hx hcode
  cases ht
  exact flt_eq_code_of_fault rfl hu hx hcode

end Sys2Proof.Machine

/-! SUPPORT. The family of 60_exceptions.md: each fault has one condition on the word and the registers (R112, R113,
R117); the fault entry writes FLT alone, and only if it is empty (R118, R119); no command but STAT shows FLT, and none
but CLRF empties it (R120, R121). -/

namespace Sys2Proof.Machine

/-! ### The condition of each fault -/

/-- When a word presented to the registers `r` raises a fault (R113). -/
def FaultCode.Condition (w : CmdWord) (r : Registers) : FaultCode → Prop
  | .illegalOp => opOf w ∉ definedOps
  | .packOverflow => opOf w = 0x20 ∧ r.pkn = 8
  | .unpackEmpty => opOf w = 0x23 ∧ r.uqn = 0

section conditions
variable {w : CmdWord} {i : Instr} {r : Registers} {a : Answer}

theorem op_of_decode (h : decode w = .ok i) : opOf w = i.op := by
  obtain ⟨row, hrow, rfl⟩ := decode_eq_ok_iff.1 h
  obtain ⟨hmem, hop⟩ := rowOf_eq_some hrow
  obtain ⟨hbuild, _⟩ := op_operand_build hmem (operandOf w)
  exact hop.symm.trans hbuild.symm

theorem op_undefined_of_decode_error {e : DecodeError} (h : decode w = .error e) : opOf w ∉ definedOps := fun hdef => by
  obtain ⟨row, hrow⟩ := mem_definedOps_iff.1 hdef
  cases (decode_of_row hrow).symm.trans h

theorem wordAnswer_of_decode (r : Registers) (h : decode w = .ok i) : wordAnswer w r = commandAnswer i r := by
  simp only [wordAnswer, h]

theorem wordAnswer_of_decode_error (r : Registers) {e : DecodeError} (h : decode w = .error e) :
    wordAnswer w r = .ok (r.raise .illegalOp) := by
  simp only [wordAnswer, h]

/-- Under a fault's condition the answer is the entry of that fault, and so no other fault applies (R117). -/
theorem FaultCode.Condition.wordAnswer_eq {c : FaultCode} (h : c.Condition w r) : wordAnswer w r = .ok (r.raise c) := by
  cases c with
  | illegalOp => exact wordAnswer_of_decode_error r (decode_of_no_row (rowOf_eq_none_of_undefined h))
  | packOverflow =>
    obtain ⟨hop, hfull⟩ := h
    exact (wordAnswer_of_decode r (decode_putb hop)).trans (putbAnswer_full r _ hfull)
  | unpackEmpty =>
    obtain ⟨hop, hempty⟩ := h
    exact (wordAnswer_of_decode r (decode_getb hop)).trans (congrArg Except.ok (getbAnswer_empty r hempty))

/-- What a word's answer is, as far as faults go: the entry of a fault whose condition holds, or CODE 0 with FLT kept
unless the word is CLRF. -/
theorem wordAnswer_raises_or_keepsFlt (h : wordAnswer w r = .ok a) :
    (∃ c : FaultCode, c.Condition w r ∧ a = r.raise c) ∨
      (a.rsp.code = 0 ∧ (decode w ≠ .ok .clrf → a.regs.flt = r.flt)) := by
  cases hd : decode w with
  | error e =>
    cases (wordAnswer_of_decode_error r hd).symm.trans h
    exact .inl ⟨.illegalOp, op_undefined_of_decode_error hd, rfl⟩
  | ok i =>
    have hi : commandAnswer i r = .ok a := (wordAnswer_of_decode r hd).symm.trans h
    obtain ⟨_, _, _, hflt, hcode⟩ := commandAnswer_frame hi
    cases i with
    | putb b =>
      rcases pkn_cases r.pkn with hfull | hlt | hbeyond
      · cases (putbAnswer_full r b hfull).symm.trans hi
        exact .inl ⟨.packOverflow, ⟨op_of_decode hd, hfull⟩, rfl⟩
      · cases (putbAnswer_push r b hlt).symm.trans hi
        exact .inr ⟨rfl, fun _ => rfl⟩
      · cases (putbAnswer_beyond r b hbeyond).symm.trans hi
    | getb =>
      cases hi
      by_cases hempty : r.uqn = 0
      · exact .inl ⟨.unpackEmpty, ⟨op_of_decode hd, hempty⟩, getbAnswer_empty r hempty⟩
      · rw [getbAnswer_pop r hempty]
        exact .inr ⟨rfl, fun _ => rfl⟩
    | clrf => exact .inr ⟨hcode (by simp) (by simp), fun hclrf => absurd rfl hclrf⟩
    | _ => exact .inr ⟨hcode (by simp) (by simp), fun _ => hflt (by simp) (by simp) (by simp)⟩

theorem FaultCode.bits_injective : Function.Injective FaultCode.bits := fun c d => by
  cases c <;> cases d <;> decide

/-- A response carries a fault's code exactly under that fault's condition (R112, R113). -/
theorem code_eq_bits_iff_condition (h : wordAnswer w r = .ok a) (c : FaultCode) :
    a.rsp.code = c.bits ↔ c.Condition w r := by
  constructor
  · intro hcode
    rcases wordAnswer_raises_or_keepsFlt h with ⟨d, hd, rfl⟩ | ⟨hzero, _⟩
    · exact FaultCode.bits_injective hcode ▸ hd
    · exact absurd (hcode.symm.trans hzero) c.bits_ne_zero
  · intro hc
    cases hc.wordAnswer_eq.symm.trans h
    rfl

end conditions

/-! ### FLT under a fault, and any other value in it -/

section flt
variable {w : CmdWord} {i : Instr} {r : Registers} {a : Answer} {s t : State}

theorem sameExceptFlt_of_setFlt {f : BitVec 3} (h : t.toRegisters = s.toRegisters.setFlt f) : SameExceptFlt s t := by
  rw [SameExceptFlt, h]
  exact ⟨rfl, rfl, rfl, rfl, rfl, rfl⟩

/-- A word whose registers have an answer performs it. -/
theorem acceptWord_of_answer (h : wordAnswer w s.toRegisters = .ok a) : acceptWord w s = .next (s.perform a) :=
  (acceptWord_eq_performOr_wordAnswer s w).trans (congrArg s.performOr h)

/-- A word that answers with a fault code performs the fault entry (R119). -/
theorem acceptWord_eq_raise {x : Response} (h : acceptWord w s = .next t) (hx : Answers s t x) (hcode : x.code ≠ 0) :
    ∃ c, t = s.raise c ∧ x = ⟨c.bits, c.cnt, 0⟩ := by
  obtain ⟨a, ha, rfl⟩ := acceptWord_next h
  obtain rfl := rsp_eq_of_answers_perform hx
  obtain ⟨c, rfl⟩ := wordAnswer_eq_raise ha hcode
  exact ⟨c, rfl, rfl⟩

/-- A command makes of registers with another FLT the same registers but for FLT, and the same response unless it is
STAT (R120). -/
theorem commandAnswer_setFlt (f : BitVec 3) (h : commandAnswer i r = .ok a) :
    ∃ a' g, commandAnswer i (r.setFlt f) = .ok a' ∧ a'.regs = a.regs.setFlt g ∧ (i ≠ .stat → a'.rsp = a.rsp) := by
  cases i with
  | putb b =>
    rcases pkn_cases r.pkn with hfull | hlt | hbeyond
    · cases (putbAnswer_full r b hfull).symm.trans h
      exact ⟨_, recordFault f .packOverflow, putbAnswer_full (r.setFlt f) b hfull, rfl, fun _ => rfl⟩
    · cases (putbAnswer_push r b hlt).symm.trans h
      exact ⟨_, f, putbAnswer_push (r.setFlt f) b hlt, rfl, fun _ => rfl⟩
    · cases (putbAnswer_beyond r b hbeyond).symm.trans h
  | getb =>
    cases h
    by_cases hempty : r.uqn = 0
    · rw [getbAnswer_empty r hempty]
      exact ⟨_, recordFault f .unpackEmpty, congrArg Except.ok (getbAnswer_empty (r.setFlt f) hempty), rfl,
        fun _ => rfl⟩
    · rw [getbAnswer_pop r hempty]
      exact ⟨_, f, congrArg Except.ok (getbAnswer_pop (r.setFlt f) hempty), rfl, fun _ => rfl⟩
  | stat => cases h; exact ⟨_, f, rfl, rfl, fun hstat => absurd rfl hstat⟩
  | clrf => cases h; exact ⟨_, 0, rfl, rfl, fun _ => rfl⟩
  | _ => cases h; exact ⟨_, f, rfl, rfl, fun _ => rfl⟩

theorem wordAnswer_setFlt (f : BitVec 3) (h : wordAnswer w r = .ok a) :
    ∃ a' g, wordAnswer w (r.setFlt f) = .ok a' ∧ a'.regs = a.regs.setFlt g ∧
      (decode w ≠ .ok .stat → a'.rsp = a.rsp) := by
  cases hd : decode w with
  | error e =>
    cases (wordAnswer_of_decode_error r hd).symm.trans h
    exact ⟨_, recordFault f .illegalOp, wordAnswer_of_decode_error (r.setFlt f) hd, rfl, fun _ => rfl⟩
  | ok i =>
    obtain ⟨a', g, ha', hregs, hrsp⟩ := commandAnswer_setFlt f ((wordAnswer_of_decode r hd).symm.trans h)
    exact ⟨a', g, (wordAnswer_of_decode _ hd).trans ha', hregs, fun hstat => hrsp fun hi => hstat (hi ▸ rfl)⟩

end flt

/-! ### FLT along a run -/

/-- The first fault code among responses, or 0 (R121). -/
def firstFault (rs : List Response) : BitVec 3 := ((rs.map Response.code).find? (· != 0)).getD 0

theorem firstFault_cons (x : Response) (rs : List Response) :
    firstFault (x :: rs) = if x.code = 0 then firstFault rs else x.code := by
  by_cases h : x.code = 0
  · simp [firstFault, h]
  · rw [if_neg h, firstFault, List.map_cons, List.find?_cons_of_pos (p := (· != 0)) (bne_iff_ne.2 h), Option.getD_some]

/-- A word other than CLRF leaves the code FLT has, or else its own response's CODE (R119). -/
theorem flt_of_wordAnswer {w : CmdWord} {r : Registers} {a : Answer} (h : wordAnswer w r = .ok a)
    (hclrf : decode w ≠ .ok .clrf) : a.regs.flt = if r.flt = 0 then a.rsp.code else r.flt := by
  rcases wordAnswer_raises_or_keepsFlt h with ⟨c, _, rfl⟩ | ⟨hcode, hkeep⟩
  · rfl
  · rw [hcode, hkeep hclrf]
    exact (ite_eq_right_iff.2 Eq.symm).symm

theorem flt_of_runWords {ws : List CmdWord} {s t : State} (h : runWords ws s = .next t)
    (hclrf : ∀ w ∈ ws, decode w ≠ .ok .clrf) :
    ∃ rs, t.pending = s.pending ++ rs ∧ t.flt = if s.flt = 0 then firstFault rs else s.flt := by
  induction ws generalizing s with
  | nil =>
    cases h
    exact ⟨[], (List.append_nil _).symm, (ite_eq_right_iff.2 Eq.symm).symm⟩
  | cons w ws ih =>
    obtain ⟨hw, hrest⟩ := List.forall_mem_cons.1 hclrf
    obtain ⟨m, hm, hrun⟩ := runWords_cons_inv s h
    obtain ⟨a, ha, rfl⟩ := acceptWord_next hm
    obtain ⟨rs, hpending, hflt⟩ := ih hrun hrest
    refine ⟨a.rsp :: rs, by simpa using hpending, ?_⟩
    rw [hflt, State.perform_toRegisters, flt_of_wordAnswer ha hw, firstFault_cons]
    by_cases hs : s.flt = 0
    · simp only [if_pos hs]
    · simp only [if_neg hs]

/-! ### The obligations of the faults -/

/-- Settles O38: a CODE that is not 0 is that of a fault, and each fault's code comes under its condition alone. -/
theorem faultsHaveTheirConditions : Obligations.FaultsHaveTheirConditions := by
  intro w s t x h hx
  obtain ⟨a, ha, rfl⟩ := acceptWord_next h
  obtain rfl := rsp_eq_of_answers_perform hx
  refine ⟨?_, code_eq_bits_iff_condition ha .illegalOp, code_eq_bits_iff_condition ha .packOverflow,
    code_eq_bits_iff_condition ha .unpackEmpty⟩
  rcases wordAnswer_raises_or_keepsFlt ha with ⟨c, _, rfl⟩ | ⟨hcode, _⟩
  · cases c with
    | illegalOp => exact .inr (.inl rfl)
    | packOverflow => exact .inr (.inr (.inl rfl))
    | unpackEmpty => exact .inr (.inr (.inr rfl))
  · exact .inl hcode

/-- Settles O39: the word performed the fault entry, which writes FLT alone. -/
theorem faultEntryIsPrecise : Obligations.FaultEntryIsPrecise := by
  intro w s t x h hx hcode
  obtain ⟨c, rfl, rfl⟩ := acceptWord_eq_raise h hx hcode
  refine ⟨sameExceptFlt_of_setFlt (State.raise_toRegisters s c), rfl, rfl, ?_⟩
  cases c <;> rfl

/-- Settles O40: a word's answer to registers with another FLT differs in FLT alone, and the fault entry writes FLT
alone. -/
theorem faultRegisterGatesNothing : Obligations.FaultRegisterGatesNothing := by
  intro w s t f h
  refine ⟨?_, fun x hx hcode => ?_⟩
  · obtain ⟨a, ha, rfl⟩ := acceptWord_next h
    obtain ⟨a', g, ha', hregs, hrsp⟩ := wordAnswer_setFlt f ha
    refine ⟨_, acceptWord_of_answer ha', sameExceptFlt_of_setFlt hregs, fun hstat => ?_⟩
    rw [State.perform_pending, State.perform_pending, hrsp hstat]
  · obtain ⟨c, rfl, _⟩ := acceptWord_eq_raise h hx hcode
    exact sameExceptFlt_of_setFlt (State.raise_toRegisters s c)

/-- Settles O41, by induction on the words: each one leaves the code FLT has, or else its own response's CODE. -/
theorem firstFaultIsKept : Obligations.FirstFaultIsKept := fun _ _ _ h hclrf => flt_of_runWords h hclrf

end Sys2Proof.Machine

/-! SUPPORT. The family of 70_reset_and_hazards.md: the reset state and the commands that lead back to it (R130, R132);
the duties a host keeps so that CORE never faults, followed through the two byte counts (R136). -/

namespace Sys2Proof.Machine

/-! ### The duties of a host -/

section duties
variable {w : CmdWord} {r : Registers} {a : Answer}

/-- The duties over a stream that begins with a word, by what the word decodes to: the definition's own
equation, which Lean does not generate for it. -/
theorem dutiesKept_cons (w : CmdWord) (ws : List CmdWord) (packed unread : Nat) :
    dutiesKept (w :: ws) packed unread = match decode w with
      | .error _ => false
      | .ok (.putb _) => decide (packed < 8) && dutiesKept ws (packed + 1) unread
      | .ok .pack => dutiesKept ws 0 unread
      | .ok (.unpk _) => dutiesKept ws packed 8
      | .ok .getb => decide (0 < unread) && dutiesKept ws packed (unread - 1)
      | .ok _ => dutiesKept ws packed unread := rfl

/-- A word keeps the duties CORE checks exactly when it is answered without fault; the counts the duties go on with are
PKN and UQN after it (R112, R136). -/
theorem dutiesKept_cons_iff (h : wordAnswer w r = .ok a) (ws : List CmdWord) :
    dutiesKept (w :: ws) r.pkn.toNat r.uqn.toNat = true ↔
      a.rsp.code = 0 ∧ dutiesKept ws a.regs.pkn.toNat a.regs.uqn.toNat = true := by
  rw [dutiesKept_cons]
  cases hd : decode w with
  | error e =>
    cases (wordAnswer_of_decode_error r hd).symm.trans h
    simp [FaultCode.bits]
  | ok i =>
    have hi : commandAnswer i r = .ok a := (wordAnswer_of_decode r hd).symm.trans h
    cases i with
    | putb b =>
      rcases pkn_cases r.pkn with hfull | hlt | hbeyond
      · cases (putbAnswer_full r b hfull).symm.trans hi
        simp [FaultCode.bits, hfull]
      · cases (putbAnswer_push r b hlt).symm.trans hi
        have hlt' : r.pkn.toNat < 8 := hlt
        have hsucc : (r.pkn + 1).toNat = r.pkn.toNat + 1 := by bv_omega
        rw [← hsucc]
        simp [hlt']
      · cases (putbAnswer_beyond r b hbeyond).symm.trans hi
    | getb =>
      cases hi
      by_cases hempty : r.uqn = 0
      · rw [getbAnswer_empty r hempty]
        simp [FaultCode.bits, hempty]
      · rw [getbAnswer_pop r hempty]
        have hpos : 0 < r.uqn.toNat := by bv_omega
        have hpred : (r.uqn - 1).toNat = r.uqn.toNat - 1 := by bv_omega
        rw [← hpred]
        simp [hpos]
    | _ =>
      cases hi
      exact (and_iff_right rfl).symm

/-- Words that run are answered without fault exactly when they keep the duties; then no fault marks the run (R122). -/
theorem dutiesKept_iff_of_runWords {ws : List CmdWord} {s t : State} (h : runWords ws s = .next t) :
    ∃ rs, t.pending = s.pending ++ rs ∧
      (dutiesKept ws s.pkn.toNat s.uqn.toNat = true ↔ ∀ x ∈ rs, x.code = 0) ∧
      (dutiesKept ws s.pkn.toNat s.uqn.toNat = true → t.faulted = s.faulted) := by
  induction ws generalizing s with
  | nil =>
    cases h
    exact ⟨[], (List.append_nil _).symm, iff_of_true rfl (List.forall_mem_nil _), fun _ => rfl⟩
  | cons w ws ih =>
    obtain ⟨m, hm, hrun⟩ := runWords_cons_inv s h
    obtain ⟨a, ha, rfl⟩ := acceptWord_next hm
    obtain ⟨rs, hpending, hcodes, hmark⟩ := ih hrun
    refine ⟨a.rsp :: rs, by simpa using hpending, ?_, fun hkept => ?_⟩
    · rw [dutiesKept_cons_iff ha, List.forall_mem_cons]
      exact and_congr_right fun _ => hcodes
    · obtain ⟨hcode, hrest⟩ := (dutiesKept_cons_iff ha ws).1 hkept
      simp [hmark hrest, hcode]

end duties

/-! ### The obligations of reset and hazards -/

/-- Settles O43: with PKN at most 8 the words run, and word by word a kept duty is an answer without fault. -/
theorem dutifulHostSeesNoFault : Obligations.DutifulHostSeesNoFault := by
  intro s ws ⟨⟨hpkn, _⟩, _, _⟩
  obtain ⟨t, _, hrun, _⟩ := runWords_completes s ws hpkn
  obtain ⟨rs, hduties⟩ := dutiesKept_iff_of_runWords hrun
  exact ⟨t, rs, hrun, hduties⟩

/-- Settles O48: START sets the chain registers and PACK the packer's, after `UNPK 0` the eight GETB empty the unpacker,
and CLRF sets FLT; so no register keeps what it held. -/
theorem commandsCanRestoreTheResetState : Obligations.CommandsCanRestoreTheResetState := by
  intro s
  have hunpacker (t : State) := run_unpk_getbs t 0 (Nat.le_refl 8)
  have hrun := (runInstrs_cons (.pack :: unpackBlock 0 ++ [.clrf]) (exec_start s)).trans <|
    (runInstrs_cons (unpackBlock 0 ++ [.clrf]) (exec_pack _)).trans <|
    (runInstrs_append [.clrf] (hunpacker _)).trans <| runInstrs_singleton (exec_clrf _)
  exact ⟨_, hrun, rfl⟩

/-- Settles O45: each register of the state after reset is given outright. -/
theorem resetStateIsAsStated : Obligations.ResetStateIsAsStated :=
  ⟨rfl, rfl, rfl, rfl, rfl, rfl, rfl, rfl, rfl⟩

end Sys2Proof.Machine

/-! SUPPORT. The two ways out of the ordinary run: the one stop of the model (93_implementation_defined.md V6, log
entry 6) and the host's reset (70_reset_and_hazards.md R129, R131, log entry 8). -/

namespace Sys2Proof.Machine

/-! ### The only stop -/

/-- The registers and commands without an answer, and the stop they are given. -/
theorem commandAnswer_eq_error_iff {i : Instr} {r : Registers} {f : Fault} :
    commandAnswer i r = .error f ↔ (∃ b, i = .putb b) ∧ 8 < r.pkn.toNat ∧ f = .packLaneOutOfRange := by
  constructor
  · intro h
    have hbeyond : 8 < r.pkn.toNat := by
      by_contra hle
      obtain ⟨a, ha⟩ := commandAnswer_completes r i (Nat.le_of_not_lt hle)
      cases ha.symm.trans h
    cases i with
    | putb b =>
      cases (putbAnswer_beyond r b hbeyond).symm.trans h
      exact ⟨⟨b, rfl⟩, hbeyond, rfl⟩
    | _ => cases h
  · rintro ⟨⟨b, rfl⟩, hbeyond, rfl⟩
    exact putbAnswer_beyond r b hbeyond

theorem performOr_eq_fault_iff {s : State} {x : Except Fault Answer} {f : Fault} :
    s.performOr x = .fault f ↔ x = .error f := by
  cases x <;> simp

theorem performOr_ne_refused (s : State) (x : Except Fault Answer) (r : Refusal) : s.performOr x ≠ .refused r := by
  cases x <;> simp

/-- A command stops exactly when its registers have no answer for it. -/
theorem exec_eq_fault_iff {i : Instr} {s : State} {f : Fault} :
    exec i s = .fault f ↔ (∃ b, i = .putb b) ∧ 8 < s.pkn.toNat ∧ f = .packLaneOutOfRange := by
  rw [exec_eq_performOr_commandAnswer, performOr_eq_fault_iff, commandAnswer_eq_error_iff]

theorem exec_ne_refused (i : Instr) (s : State) (r : Refusal) : exec i s ≠ .refused r := by
  rw [exec_eq_performOr_commandAnswer]
  exact performOr_ne_refused s _ r

/-! ### The obligations of the stop and of reset -/

/-- Settles O44: a command performs the answer of its registers, and the one answer missing is PUTB's beyond the eight
lanes. -/
theorem onlyStopIsPutbBeyondTheLanes : Obligations.OnlyStopIsPutbBeyondTheLanes := by
  refine ⟨fun s b hbeyond => execPutb_beyond s b hbeyond, fun i s f h => ?_, exec_ne_refused⟩
  obtain ⟨hputb, hbeyond, _⟩ := exec_eq_fault_iff.1 h
  exact ⟨hputb, hbeyond⟩

/-- Settles O47: the step performs the reset presented, which writes the registers and the pending responses alone. -/
theorem assertingResetRestoresEveryRegister : Obligations.AssertingResetRestoresEveryRegister :=
  fun s rest h => ⟨(s.withInputs rest).assertReset, step_of_inputs_cons s h, rfl, rfl, rfl, rfl, rfl⟩

end Sys2Proof.Machine
